-- ==== Sys2Proof/Word.lean ====
section
/-! DEFINITION. The word types of the SMRNG unit. Every value of the unit is unsigned (R9). -/

namespace Sys2Proof

/-- A value of `STATE`: 16 bits (R7 `W`, R21). -/
abbrev Gen := BitVec 16

/-- A byte field of `STATE` (R22). -/
abbrev Byte := BitVec 8

/-- A command word: 20 bits (R8 `CW`, R70). -/
abbrev CmdWord := BitVec 20

/-- The operand field `IMM` of a command word (R70). -/
abbrev Imm := BitVec 16

/-- A value of `RESULT` and of `STATUS`: 32 bits (R8 `RW`, R26). -/
abbrev ResultWord := BitVec 32

/-- A histogram counter: 32 bits (R8 `HCW`, R29). -/
abbrev Counter := BitVec 32

/-- The five drop outcomes of one protocol run, bit i the outcome i (R152). -/
abbrev DropVec := BitVec 5

/-- The 3-bit counter index of HREAD and the 3-bit value of the ones counter (R71, R153). -/
abbrev CounterIndex := BitVec 3

end Sys2Proof
end

