-- ==== Sys2Proof/Config.lean ====
section
/-! DEFINITION. What an implementation fixes. R8 gives the unit ONE parameter, `HIST_EN`. The constants of R7 are
not parameters; they stand with the functions that use them. -/

namespace Sys2Proof

/-- The default of the parameter `HIST_EN` (R8, D12: "default 1"). It decides only which of the two units
`State.reset` describes; every state carries its own `HIST_EN` (log entry 1). DESIGN CHOICE, safe: nothing is
said of a unit with `HIST_EN = 0` by a statement about `State.reset`. -/
def Config.histEn : Bool := true

end Sys2Proof
end

