-- ==== Sys2Proof/Syntax.lean ====
section
/-! DEFINITION. The commands of the unit (R72), one constructor per row of spec/opcode_table.json, and the causes of
an illegal command (R201). -/

namespace Sys2Proof

/-- A command with its operand. The operand types are the operand forms of R71: none, imm16, idx3. -/
inductive Instr where
  /-- NOP, 0x0 (R110). -/
  | nop
  /-- SEED v, 0x1 (R112). -/
  | seed (v : Imm)
  /-- ADV, 0x2 (R114). -/
  | adv
  /-- DROP, 0x3 (R133). -/
  | drop
  /-- ADVN n, 0x4 (R117). -/
  | advn (n : Imm)
  /-- SIM, 0x8, option HIST (R158). -/
  | sim
  /-- SIMACC, 0x9, option HIST (R161). -/
  | simacc
  /-- HCLR, 0xA, option HIST (R164). -/
  | hclr
  /-- HREAD k, 0xB, option HIST (R167). The field has 3 bits; 6 and 7 are not well formed (R71). -/
  | hread (k : CounterIndex)
  deriving DecidableEq, Repr

/-- Why a command word is illegal (R201). Cause code 0, "none", is no reason and has no constructor. -/
inductive IllegalCause where
  /-- Cause 1: the opcode is reserved, or needs option HIST and the unit has none. -/
  | reservedOpcode
  /-- Cause 2: an operand bit that must be 0 is not. -/
  | reservedOperandBits
  /-- Cause 3: the counter index of HREAD is 6 or 7. -/
  | indexOutOfRange
  deriving DecidableEq, Repr

end Sys2Proof
end

