-- ==== Sys2Proof/WellFormed.lean ====
section
/-! DEFINITION. Which command terms stand for a command word (R71), and which need option HIST (R72). -/

namespace Sys2Proof

/-- The operand of a command is one its form allows. The only check is HREAD's index: "The legal values are 0 to 5"
(R71). Every imm16 value is legal. -/
def Instr.wellFormed : Instr → Bool
  | .nop => true
  | .seed _ => true
  | .adv => true
  | .drop => true
  | .advn _ => true
  | .sim => true
  | .simacc => true
  | .hclr => true
  | .hread k => k.toNat < 6

/-- The command belongs to option HIST (the option column of R72). -/
def Instr.needsHist : Instr → Bool
  | .nop => false
  | .seed _ => false
  | .adv => false
  | .drop => false
  | .advn _ => false
  | .sim => true
  | .simacc => true
  | .hclr => true
  | .hread _ => true

/-- The command is legal on a unit with this `HIST_EN` (R73). -/
def Instr.available (histEn : Bool) (i : Instr) : Bool := !i.needsHist || histEn

end Sys2Proof
end

