-- ==== Sys2Proof/Decode.lean ====
section
/-! DEFINITION. The decoder of R74, total on the 20-bit words and rejecting by cause, and after it the encoder. -/

namespace Sys2Proof

/-- `OP`, bits 19:16 of a command word (R70). -/
def opcode (w : CmdWord) : BitVec 4 := w.extractLsb' 16 4

/-- `IMM`, bits 15:0 of a command word (R70). -/
def operand (w : CmdWord) : Imm := w.extractLsb' 0 16

/-- `IMM[2:0]`, the index of the idx3 form (R71). -/
def indexField (imm : Imm) : CounterIndex := imm.extractLsb' 0 3

/-- `IMM[15:3]`, which the idx3 form requires to be 0 (R71). -/
def indexReserved (imm : Imm) : BitVec 13 := imm.extractLsb' 3 13

/-- What the decoder answers: "either one command with its operand, or `Illegal(cause)`" (R74). -/
inductive Decoded where
  | command (i : Instr)
  | illegal (c : IllegalCause)
  deriving DecidableEq, Repr

/-- The code of a cause in `STATUS.CAUSE` (R201). -/
def IllegalCause.code : IllegalCause → BitVec 2
  | .reservedOpcode => 1
  | .reservedOperandBits => 2
  | .indexOutOfRange => 3

/-- The form "none": the operand must be 0x0000 (R71). -/
def decodeNone (imm : Imm) (i : Instr) : Decoded :=
  if imm = 0 then .command i else .illegal .reservedOperandBits

/-- The form idx3 of HREAD, its two tests in the order of R74. -/
def decodeIndex (imm : Imm) : Decoded :=
  if indexReserved imm ≠ 0 then .illegal .reservedOperandBits
  else if 6 ≤ (indexField imm).toNat then .illegal .indexOutOfRange
  else .command (.hread (indexField imm))

/-- An opcode of option HIST is a reserved opcode on a unit without it (R73). -/
def decodeHist (histEn : Bool) (d : Decoded) : Decoded :=
  if histEn then d else .illegal .reservedOpcode

/-- `decode(w, HIST_EN)` of R74. -/
def decode (histEn : Bool) (w : CmdWord) : Decoded :=
  match (opcode w).toNat with
  | 0x0 => decodeNone (operand w) .nop
  | 0x1 => .command (.seed (operand w))
  | 0x2 => decodeNone (operand w) .adv
  | 0x3 => decodeNone (operand w) .drop
  | 0x4 => .command (.advn (operand w))
  | 0x8 => decodeHist histEn (decodeNone (operand w) .sim)
  | 0x9 => decodeHist histEn (decodeNone (operand w) .simacc)
  | 0xA => decodeHist histEn (decodeNone (operand w) .hclr)
  | 0xB => decodeHist histEn (decodeIndex (operand w))
  | _ => .illegal .reservedOpcode

/-- The word is one command for a unit with this `HIST_EN`. -/
def isLegal (histEn : Bool) (w : CmdWord) : Bool :=
  match decode histEn w with
  | .command _ => true
  | .illegal _ => false

/-- `OP` of a command (R72). -/
def Instr.op : Instr → BitVec 4
  | .nop => 0x0
  | .seed _ => 0x1
  | .adv => 0x2
  | .drop => 0x3
  | .advn _ => 0x4
  | .sim => 0x8
  | .simacc => 0x9
  | .hclr => 0xA
  | .hread _ => 0xB

/-- `IMM` of a command: 0x0000 for the form none, the value for imm16, `zext_16(k)` for idx3 (R71, R167). -/
def Instr.imm : Instr → Imm
  | .nop => 0
  | .seed v => v
  | .adv => 0
  | .drop => 0
  | .advn n => n
  | .sim => 0
  | .simacc => 0
  | .hclr => 0
  | .hread k => k.setWidth 16

/-- `{OP, IMM}` (R70, R77). -/
def packWord (op : BitVec 4) (imm : Imm) : CmdWord := op ++ imm

/-- The word of a command. It is defined on every term; `hread 6` and `hread 7` give the illegal words
0xB0006 and 0xB0007. -/
def encode (i : Instr) : CmdWord := packWord i.op i.imm

/-- The word the table gives as a number of `nbits` bits: the `cmd` port has 20 wires, so a number with a bit above
bit 19 is no word. -/
def tableWord (nbits w : Nat) : Option CmdWord :=
  if w % 2 ^ nbits < 2 ^ 20 then some (BitVec.ofNat 20 (w % 2 ^ nbits)) else none

/-- The command the decoder reads from a table word, on a unit with the default `HIST_EN` (log entry 7). -/
def decodeTableWord (nbits w : Nat) : Option Instr :=
  match tableWord nbits w with
  | none => none
  | some c =>
    match decode Config.histEn c with
    | .command i => some i
    | .illegal _ => none

end Sys2Proof
end

