-- ==== Sys2Proof/Machine/State.lean ====
section
/-! DEFINITION. The state of the unit as plain data: the architected registers of R20, option HIST as present or
absent, the sequencer's hidden state of R34, and the host's list of commands of R245. Faults, refusals and the state
after reset. -/

namespace Sys2Proof.Machine

/-- What option HIST adds to the registers (R2, R20): `DVEC` and the six counters `HIST[0..5]` (R29). -/
structure HistPart where
  /-- `DVEC`, STATUS[9:5]: the five drop outcomes of the last retired SIM or SIMACC (R27). -/
  dvec : DropVec
  /-- `HIST[0]` to `HIST[5]` (R29). -/
  counters : Vector Counter 6
  deriving DecidableEq, Repr

/-- The protocol step a SIM or SIMACC in flight does next (R34: "which of the 4 pairs, how many of the 176 burn
advances are done, the final drop"). -/
inductive ProtocolStep where
  /-- The advance of pair i. -/
  | pairAdvance (i : Fin 4)
  /-- An advance inside the drop of pair i. -/
  | pairDrop (i : Fin 4)
  /-- A burn advance, `done` of the 176 being done. -/
  | burn (done : Fin 176)
  /-- An advance inside the final drop. -/
  | lastDrop
  deriving DecidableEq, Repr

/-- The command in flight and its hidden progress (R34). Only commands of more than one advance are ever in flight
after an edge (R241). -/
inductive Job where
  /-- ADVN with `left` advances still to do. -/
  | advn (left : BitVec 16)
  /-- DROP. Whether the last advance gave a nonzero low byte is read off the working copy (log entry 4). -/
  | drop
  /-- SIM (`accumulate = false`) or SIMACC (`true`), the next protocol step, and the partial drop bits. -/
  | outcome (accumulate : Bool) (step : ProtocolStep) (dv : DropVec)
  deriving DecidableEq, Repr

/-- The phase of the command sequencer (R34). `BUSY` is 1 exactly in `executing` (R27, R53); that it
is 0 in `powerUp`, where R233 leaves it open, is the model's choice (log entry 13). -/
inductive Phase where
  /-- Power is on and no reset edge has happened since: every register and the command port are unspecified (R233). -/
  | powerUp
  /-- IDLE: no command is in flight. -/
  | idle
  /-- EXECUTING: a command is in flight, with its working copy of the state being advanced. -/
  | executing (job : Job) (work : Gen)
  deriving DecidableEq, Repr

/-- The unit, and the host's commands it has not accepted yet. -/
structure State where
  /-- `STATE`, the generator state (R21). -/
  gen : Gen
  /-- `RESULT`, the value the last retired command returned (R25). -/
  result : ResultWord
  /-- `DBIT`, STATUS[1] (R27). -/
  dbit : Bool
  /-- `ILL`, STATUS[2], sticky (R27). -/
  ill : Bool
  /-- `CAUSE`, STATUS[4:3], sticky (R27). -/
  cause : BitVec 2
  /-- `ILLCMD` (R28). -/
  illcmd : CmdWord
  /-- Option HIST: present exactly on a unit with `HIST_EN = 1` (R2, R20). Its absence is the spec's own state of a
  unit built without the option, not a missing value (log entry 1). -/
  hist : Option HistPart
  /-- The command sequencer (R34). -/
  phase : Phase
  /-- The command words the host presents next, in its order (R31, R245). The model's own field for the host's
  input, no register of the unit (log entry 2). -/
  commands : List CmdWord
  deriving DecidableEq, Repr

/-- What stops a step. The unit itself never stops: an illegal command is recorded and the unit goes on (R200, R202). -/
inductive Fault where
  /-- Raised by `step` in `Phase.powerUp`, where the spec leaves "the behaviour of the command port" unspecified
  (R233; 93_implementation_defined.md: "stuck"). Safe: the model stops where the hardware may do anything. -/
  | notReset
  deriving DecidableEq, Repr

/-- Why the model gives no meaning. -/
inductive Refusal where
  /-- Raised by an arm of `exec` for an instruction the model has no meaning for. No arm raises it. Safe. -/
  | notModelled (mnemonic : String)
  deriving DecidableEq, Repr

/-- The counters after reset (R230). -/
def HistPart.reset : HistPart := { dvec := 0, counters := Vector.replicate 6 0 }

/-- The unit after a reset edge, with the given `HIST_EN` (R230). -/
def State.resetOf (histEn : Bool) : State :=
  { gen := 0x0000
    result := 0x00000000
    dbit := false
    ill := false
    cause := 0
    illcmd := 0x00000
    hist := if histEn then some HistPart.reset else none
    phase := .idle
    commands := [] }

/-- The machine right after reset: the unit of R230 with the default `HIST_EN` of R8, waiting for its first command
(R232). -/
def State.reset : State := State.resetOf Config.histEn

end Sys2Proof.Machine
end

