-- ==== Sys2Proof/Machine/Datapath.lean ====
section
/-! DEFINITION. The transition datapath N (40_advance.md §1), stage by stage, and the advances built from it. The
arithmetic is exact on `Nat`, as R9 reads it, and is narrowed only where R104 masks. -/

namespace Sys2Proof.Machine

/-- `MUL` (R7). -/
def byteMultiplier : Nat := 5

/-- `ADD1`, the pre-fold addend (R7). -/
def preFoldAddend : Nat := 0x100

/-- `ADD2`, the fold addend (R7). -/
def foldAddend : Nat := 0x11

/-- `STATE[7:0]` (R22). -/
def lowByte (s : Gen) : Byte := s.extractLsb' 0 8

/-- `STATE[15:8]` (R22). -/
def highByte (s : Gen) : Byte := s.extractLsb' 8 8

/-- `r1 = low * 5`, not masked (R102). -/
def r1 (s : Gen) : Nat := (lowByte s).toNat * byteMultiplier

/-- `p2 = high * 5` (R101). -/
def p2 (s : Gen) : Nat := (highByte s).toNat * byteMultiplier

/-- `r2 = p2 & 0xFF` (R103). -/
def r2 (s : Gen) : Nat := p2 s % 2 ^ 8

/-- `sh = r2 << 8` (R101). -/
def sh (s : Gen) : Nat := r2 s * 2 ^ 8

/-- `combined = r1 + (r2 << 8) + 0x100`, an exact sum (R104). -/
def combined (s : Gen) : Nat := r1 s + sh s + preFoldAddend

/-- The fold carry `c = combined >> 16` (R104). No register holds it (R32). -/
def foldCarry (s : Gen) : Nat := combined s / 2 ^ 16

/-- `sum = c + combined + 0x11` (R101). -/
def foldSum (s : Gen) : Nat := foldCarry s + combined s + foldAddend

/-- `N(s) = sum & 0xFFFF`: one tick of the generator (R104). -/
def N (s : Gen) : Gen := BitVec.ofNat 16 (foldSum s)

/-- The same datapath on wires of exactly the widths of R101: 8-bit bytes, 11-bit products, an 8-bit `r2`, a 16-bit
`sh`, a 17-bit `combined` and `sum`, a 1-bit `c`. -/
def nWires (s : Gen) : Gen :=
  let r1w : BitVec 11 := (lowByte s).setWidth 11 * 5
  let p2w : BitVec 11 := (highByte s).setWidth 11 * 5
  let r2w : BitVec 8 := p2w.setWidth 8
  let shw : BitVec 16 := r2w.setWidth 16 <<< 8
  let combinedw : BitVec 17 := r1w.setWidth 17 + shw.setWidth 17 + 0x100
  let cw : BitVec 1 := combinedw.extractLsb' 16 1
  let sumw : BitVec 17 := cw.setWidth 17 + combinedw + 0x11
  sumw.setWidth 16

/-- `n` ticks: `for i in 1..n: s = N(s)`, none for n = 0 (R117, R10). -/
def advances : Nat → Gen → Gen
  | 0, s => s
  | n + 1, s => advances n (N s)

end Sys2Proof.Machine
end

