-- ==== Sys2Proof/Machine/DropPredicate.lean ====
section
/-! DEFINITION. The drop function (41_drop.md §1): its uncapped loop as a relation, the fact that the loop ends
(R132), and the function that runs it. No iteration count ends the loop (R131): the number in `dropLoop` is only the
measure of a proof that it ends, and there is no default for running out of it. -/

namespace Sys2Proof.Machine

/-- `DROP_HIT` (R7). -/
def dropHit : Byte := 0x01

/-- "true iff that nonzero low byte equals exactly 1" (R7, R130). -/
def isHit (s : Gen) : Bool := lowByte s == dropHit

/-- The loop of R130 as it stands, with no cap: `DropRuns s s' b n` says that `Drop(s)` returns `(s', b, n)`. -/
inductive DropRuns : Gen → Gen → Bool → Nat → Prop where
  /-- The new state has a nonzero low byte: the loop ends with this advance. -/
  | stop (s : Gen) (h : lowByte (N s) ≠ 0) : DropRuns s (N s) (isHit (N s)) 1
  /-- The new state has a zero low byte: the loop goes on from it. -/
  | again (s s' : Gen) (b : Bool) (n : Nat) (h : lowByte (N s) = 0) (r : DropRuns (N s) s' b n) :
      DropRuns s s' b (n + 1)

/-- The loop of R130 ends within `k` advances from `s`. -/
def DropEnds : Nat → Gen → Prop
  | 0, _ => False
  | k + 1, s => lowByte (N s) = 0 → DropEnds k (N s)

/-- A state with a zero low byte advances to one with low byte 0x11 or 0x12 (the proof of R132). -/
theorem lowByte_N_of_zero {s : Gen} (h : lowByte s = 0) :
    lowByte (N s) = 0x11 ∨ lowByte (N s) = 0x12 := by
  have h0 : (lowByte s).toNat = 0 := by rw [h]; rfl
  have hb : r2 s < 2 ^ 8 := Nat.mod_lt _ (by decide)
  have hr : r1 s = 0 := by simp only [r1, h0, Nat.zero_mul]
  have hN : (lowByte (N s)).toNat = (foldCarry s + foldAddend) % 2 ^ 8 := by
    simp only [lowByte, N, BitVec.extractLsb'_toNat, BitVec.toNat_ofNat, foldSum, combined, sh, hr,
      preFoldAddend, foldAddend, Nat.shiftRight_zero]
    omega
  have hc : foldCarry s = 0 ∨ foldCarry s = 1 := by
    simp only [foldCarry, combined, sh, hr, preFoldAddend]
    omega
  rcases hc with hc | hc
  · left; apply BitVec.eq_of_toNat_eq; rw [hN, hc]; rfl
  · right; apply BitVec.eq_of_toNat_eq; rw [hN, hc]; rfl

/-- The loop ends within two advances from every state (R132). -/
theorem drop_ends (s : Gen) : DropEnds 2 s := by
  intro h h2
  rcases lowByte_N_of_zero h with e | e <;> rw [e] at h2 <;> exact absurd h2 (by decide)

/-- What `Drop` returns: the final state, the drop bit and the number of advances (R130). -/
structure DropResult where
  state : Gen
  bit : Bool
  advances : Nat
  deriving DecidableEq, Repr

/-- The loop of R130 from `s` with `n` advances done. `k` bounds the loop only through the proof `h` that it ends, so
no count ever cuts it short (R131). -/
def dropLoop : (k : Nat) → (s : Gen) → DropEnds k s → Nat → DropResult
  | 0, _, h, _ => h.elim
  | k + 1, s, h, n =>
    if hz : lowByte (N s) = 0 then dropLoop k (N s) (h hz) (n + 1)
    else { state := N s, bit := isHit (N s), advances := n + 1 }

/-- `Drop(s)` (R130). -/
def drop (s : Gen) : DropResult := dropLoop 2 s (drop_ends s) 0

end Sys2Proof.Machine
end

