-- ==== Sys2Proof/Machine/Operands.lean ====
section
/-! DEFINITION. What the commands make of their operands and of the values they return. The operand forms' encodings,
with the checks of R71, stand in Decode.lean. -/

namespace Sys2Proof.Machine

/-- The form imm16 as an advance count, 0 to 65535 (R71, R117). -/
def advanceCount (n : Imm) : Nat := n.toNat

/-- The form idx3 as one of the six counters; none for 6 and 7 (R30, R71). -/
def counterSlot (k : CounterIndex) : Option (Fin 6) :=
  if h : k.toNat < 6 then some ⟨k.toNat, h⟩ else none

/-- `zext_32` of a generator state (R25). -/
def resultOfGen (g : Gen) : ResultWord := g.setWidth 32

/-- `zext_32` of the drop bit: 0x00000001 or 0x00000000 (R133). -/
def resultOfBit (b : Bool) : ResultWord := if b then 0x00000001 else 0x00000000

/-- `zext_32` of the outcome (R158). -/
def resultOfOutcome (k : CounterIndex) : ResultWord := k.setWidth 32

end Sys2Proof.Machine
end

