-- ==== Sys2Proof/Machine/Flags.lean ====
section
/-! DEFINITION. The flags and the STATUS word (R26, R27), the partial drop bits and the ones counter (R152, R153). -/

namespace Sys2Proof.Machine

/-- `dv[i] <- b` (R151). -/
def assignBit (dv : DropVec) (i : Nat) (b : Bool) : DropVec :=
  if b then dv ||| BitVec.twoPow 5 i else dv &&& ~~~(BitVec.twoPow 5 i)

/-- The sum `dv[0] + dv[1] + dv[2] + dv[3] + dv[4]`, each bit 0 or 1, before it is put on 3 wires (R153). -/
def onesSum (dv : DropVec) : Nat :=
  (dv.getLsbD 0).toNat + (dv.getLsbD 1).toNat + (dv.getLsbD 2).toNat + (dv.getLsbD 3).toNat + (dv.getLsbD 4).toNat

/-- The 5-input ones counter's 3-bit output `k` (R153). -/
def onesCount (dv : DropVec) : CounterIndex := BitVec.ofNat 3 (onesSum dv)

/-- "k is a 3-bit value in 0..5. The values 6 and 7 cannot occur" (R153). -/
theorem onesCount_lt (dv : DropVec) : (onesCount dv).toNat < 6 := by
  have h : ∀ b : Bool, b.toNat ≤ 1 := by decide
  have h0 := h (dv.getLsbD 0)
  have h1 := h (dv.getLsbD 1)
  have h2 := h (dv.getLsbD 2)
  have h3 := h (dv.getLsbD 3)
  have h4 := h (dv.getLsbD 4)
  simp only [onesCount, onesSum, BitVec.toNat_ofNat]
  omega

/-- The counter an outcome selects; it always exists (R30, R161: "no index check is needed"). -/
def outcomeSlot (dv : DropVec) : Fin 6 := ⟨(onesCount dv).toNat, onesCount_lt dv⟩

/-- `BUSY`, STATUS[0]: a command is executing and has not retired (R27). DESIGN CHOICE, unsafe: before the first reset,
where R233 leaves it open, it answers false (log entry 13). What `status_o` shows there is drawn by `outputs`. -/
def State.busy (s : State) : Bool :=
  match s.phase with
  | .powerUp => false
  | .idle => false
  | .executing _ _ => true

/-- `HISTEN`, STATUS[10], hardwired: 1 if option HIST is present (R27). -/
def State.histEn (s : State) : Bool := s.hist.isSome

/-- `DVEC` as it reads: 0 on a unit without option HIST (R20, R27). -/
def State.dvec (s : State) : DropVec :=
  match s.hist with
  | none => 0
  | some h => h.dvec

/-- `HIST[k]` where the unit has it (R29). -/
def State.counter (s : State) (k : Fin 6) : Option Counter :=
  match s.hist with
  | none => none
  | some h => some h.counters[k]

/-- `STATUS`: the fields of R27 in their places, bits 31:11 zero. -/
def statusWord (histen : Bool) (dvec : DropVec) (cause : BitVec 2) (ill dbit busy : Bool) : ResultWord :=
  (0 : BitVec 21) ++ BitVec.ofBool histen ++ dvec ++ cause ++ BitVec.ofBool ill ++ BitVec.ofBool dbit
    ++ BitVec.ofBool busy

/-- `STATUS` of a state (R26, R27). DESIGN CHOICE, unsafe: before the first reset, where R233 leaves every register open,
it is read off the fields, with BUSY 0 (log entry 13). -/
def State.status (s : State) : ResultWord :=
  statusWord s.histEn s.dvec s.cause s.ill s.dbit s.busy

end Sys2Proof.Machine
end

