-- ==== Sys2Proof/Machine/Protocol.lean ====
section
/-! DEFINITION. The outcome protocol of option HIST (42_outcome_histogram.md §1), in whole and from each of its
steps. -/

namespace Sys2Proof.Machine

/-- `BURN`, the discarded advances (R7). -/
def burnCount : Nat := 176

/-- The pairs in protocol order, `PAIRS = 4` (R7, R151). -/
def pairOrder : List (Fin 4) := [0, 1, 2, 3]

/-- The protocol part way: the state, the drop bits so far, and the advances done (R151, R154). -/
structure ProtocolRun where
  state : Gen
  dv : DropVec
  advances : Nat
  deriving DecidableEq, Repr

/-- `(s, dv[i], _) = Drop(s)` (R151). -/
def runDrop (r : ProtocolRun) (i : Nat) : ProtocolRun :=
  let d := drop r.state
  { state := d.state, dv := assignBit r.dv i d.bit, advances := r.advances + d.advances }

/-- `n` advances whose values are discarded (R151). -/
def runAdvances (r : ProtocolRun) (n : Nat) : ProtocolRun :=
  { r with state := advances n r.state, advances := r.advances + n }

/-- Pair i: the advance comes before the drop (R151). -/
def runPair (r : ProtocolRun) (i : Fin 4) : ProtocolRun := runDrop (runAdvances r 1) i

/-- The pairs of a list, in its order. -/
def runPairs (is : List (Fin 4)) (r : ProtocolRun) : ProtocolRun := is.foldl runPair r

/-- The final drop e, `dv[4]` (R151, R152). -/
def runLastDrop (r : ProtocolRun) : ProtocolRun := runDrop r 4

/-- What follows the pairs: the burn, then the final drop (R151). -/
def runTail (r : ProtocolRun) : ProtocolRun := runLastDrop (runAdvances r burnCount)

/-- `Outcome(s)` (R151): its state and drop bits, with the advance count of R154; `k` is `onesCount` of the bits. -/
def outcome (s : Gen) : ProtocolRun :=
  runTail (runPairs pairOrder { state := s, dv := 0, advances := 0 })

/-- The rest of the protocol when `step` is what is done next (R34, R151). -/
def protocolFrom (step : ProtocolStep) (r : ProtocolRun) : ProtocolRun :=
  match step with
  | .pairAdvance i => runTail (runPairs (pairOrder.drop i) r)
  | .pairDrop i => runTail (runPairs (pairOrder.drop (i + 1)) (runDrop r i))
  | .burn done => runLastDrop (runAdvances r (burnCount - done))
  | .lastDrop => runLastDrop r

end Sys2Proof.Machine
end

