-- ==== Sys2Proof/Machine/Ops.lean ====
section
/-! DEFINITION. The named operations over the registers, shared by the commands' meanings, by the command in flight and
by the clock edge. Taking an exception (R202) is `raiseIllegal`; there is no return from one (R206). -/

namespace Sys2Proof.Machine

/-- `raise IllegalCommand(cause)` for an accepted word w (R202): the first one since reset is recorded, ILL stays set,
nothing else changes. -/
def raiseIllegal (c : IllegalCause) (w : CmdWord) (s : State) : State :=
  { s with
    cause := if s.ill then s.cause else c.code
    illcmd := if s.ill then s.illcmd else w
    ill := true }

/-- `STATE <- v` (R112). -/
def loadGen (v : Gen) (s : State) : State := { s with gen := v }

/-- What ADV and ADVN write when they retire: STATE and RESULT get the new state (R114, R117). -/
def retireAdvance (g : Gen) (s : State) : State := { s with gen := g, result := resultOfGen g }

/-- What DROP writes when it retires: STATE, DBIT and RESULT (R133). -/
def retireDrop (g : Gen) (b : Bool) (s : State) : State :=
  { s with gen := g, dbit := b, result := resultOfBit b }

/-- `HIST[k] <- trunc_32(HIST[k] + 1)`, wrapping modulo 2^32 (R161, R162). -/
def HistPart.bump (h : HistPart) (k : Fin 6) : HistPart :=
  { h with counters := h.counters.set k (h.counters[k] + 1) }

/-- `for k in 0..5: HIST[k] <- 0` (R164). -/
def HistPart.clear (h : HistPart) : HistPart := { h with counters := Vector.replicate 6 0 }

/-- What SIM (`accumulate = false`) and SIMACC (`true`) write when they retire: STATE, DVEC, RESULT, and for SIMACC the
counter of the outcome (R158, R161). `h` is the option's registers before. -/
def retireOutcome (accumulate : Bool) (g : Gen) (dv : DropVec) (h : HistPart) (s : State) : State :=
  let h' : HistPart := { h with dvec := dv }
  { s with
    gen := g
    result := resultOfOutcome (onesCount dv)
    hist := some (if accumulate then h'.bump (outcomeSlot dv) else h') }

/-- `for k in 0..5: HIST[k] <- 0` on the unit (R164). -/
def clearCounters (h : HistPart) (s : State) : State := { s with hist := some h.clear }

/-- `RESULT <- HIST[k]` (R167). -/
def readCounter (h : HistPart) (k : Fin 6) (s : State) : State := { s with result := h.counters[k] }

/-- A command of option HIST: its effect where the option is present, else IllegalCommand(1) for the command's own word
(R73, R201). -/
def withHist (i : Instr) (s : State) (f : HistPart → State) : State :=
  match s.hist with
  | none => raiseIllegal .reservedOpcode (encode i) s
  | some h => f h

/-- Completes the command in flight from its working copy: all its writes take effect together (R56), and the sequencer
returns to IDLE. A SIM or SIMACC is never in flight on a unit without option HIST (R73). -/
def finishJob (job : Job) (work : Gen) (s : State) : State :=
  let idle : State := { s with phase := .idle }
  match job with
  | .advn left => retireAdvance (advances (max 1 left.toNat) work) idle
  | .drop => retireDrop (drop work).state (drop work).bit idle
  | .outcome accumulate step dv =>
    match s.hist with
    | none => idle
    | some h =>
      let r := protocolFrom step { state := work, dv := dv, advances := 0 }
      retireOutcome accumulate r.state r.dv h idle

/-- A reset edge (R230): every register takes its reset value and the command in flight is abandoned (R231). HISTEN
stays, being hardwired (R27), and the host's list is the host's own (log entry 9). -/
def resetUnit (s : State) : State := { State.resetOf s.histEn with commands := s.commands }

/-- Loss of power (R214): the unit "loses all state" and returns to it only through reset. What the fields hold
afterwards is never read (R233). -/
def powerLoss (s : State) : State := { s with phase := .powerUp }

end Sys2Proof.Machine
end

