-- ==== Sys2Proof/Machine/Advance.lean ====
section
/-! DEFINITION. The meanings of NOP, SEED, ADV and ADVN (40_advance.md §2). -/

namespace Sys2Proof.Machine

/-- NOP (R110): no effect. -/
def execNop (s : State) : Host.Outcome State Fault Refusal := .next s

/-- SEED v (R112): `STATE <- IMM`. It does not advance. -/
def execSeed (v : Imm) (s : State) : Host.Outcome State Fault Refusal := .next (loadGen v s)

/-- ADV (R114): one tick; STATE and RESULT get the new state. -/
def execAdv (s : State) : Host.Outcome State Fault Refusal := .next (retireAdvance (N s.gen) s)

/-- ADVN n (R117): n ticks; for n = 0, STATE stays and RESULT gets it. -/
def execAdvn (n : Imm) (s : State) : Host.Outcome State Fault Refusal :=
  .next (retireAdvance (advances (advanceCount n) s.gen) s)

end Sys2Proof.Machine
end

