-- ==== Sys2Proof/Machine/Drop.lean ====
section
/-! DEFINITION. The meaning of DROP (41_drop.md §1). -/

namespace Sys2Proof.Machine

/-- DROP (R133): STATE, DBIT and RESULT from `Drop(STATE)`. -/
def execDrop (s : State) : Host.Outcome State Fault Refusal :=
  .next (retireDrop (drop s.gen).state (drop s.gen).bit s)

end Sys2Proof.Machine
end

