-- ==== Sys2Proof/Machine/Histogram.lean ====
section
/-! DEFINITION. The meanings of SIM, SIMACC, HCLR and HREAD (42_outcome_histogram.md §2). On a unit without option HIST
each is IllegalCommand(1) (R73). -/

namespace Sys2Proof.Machine

/-- SIM (R158): STATE, DVEC and RESULT from `Outcome(STATE)`. -/
def execSim (s : State) : Host.Outcome State Fault Refusal :=
  .next (withHist .sim s fun h => retireOutcome false (outcome s.gen).state (outcome s.gen).dv h s)

/-- SIMACC (R161): as SIM, and the counter of the outcome counts one more. -/
def execSimacc (s : State) : Host.Outcome State Fault Refusal :=
  .next (withHist .simacc s fun h => retireOutcome true (outcome s.gen).state (outcome s.gen).dv h s)

/-- HCLR (R164): all six counters to 0. -/
def execHclr (s : State) : Host.Outcome State Fault Refusal :=
  .next (withHist .hclr s fun h => clearCounters h s)

/-- HREAD k (R167): `RESULT <- HIST[k]`; IllegalCommand(3) for k = 6 or 7 (R201). -/
def execHread (k : CounterIndex) (s : State) : Host.Outcome State Fault Refusal :=
  .next (withHist (.hread k) s fun h =>
    match counterSlot k with
    | none => raiseIllegal .indexOutOfRange (encode (.hread k)) s
    | some j => readCounter h j s)

end Sys2Proof.Machine
end

