-- ==== Sys2Proof/Machine/Dispatch.lean ====
section
/-! DEFINITION. One arm per constructor of Instr. -/

namespace Sys2Proof.Machine

def exec (i : Instr) (s : State) : Host.Outcome State Fault Refusal :=
  match i with
  | .nop => Sys2Proof.Machine.execNop s
  | .seed v => Sys2Proof.Machine.execSeed v s
  | .adv => Sys2Proof.Machine.execAdv s
  | .drop => Sys2Proof.Machine.execDrop s
  | .advn n => Sys2Proof.Machine.execAdvn n s
  | .sim => Sys2Proof.Machine.execSim s
  | .simacc => Sys2Proof.Machine.execSimacc s
  | .hclr => Sys2Proof.Machine.execHclr s
  | .hread k => Sys2Proof.Machine.execHread k s

end Sys2Proof.Machine
end

