-- ==== Sys2Proof/Machine/Accept.lean ====
section
/-! DEFINITION. Accepting a command word: taking the next one of the host's list, decoding it, and applying its rule or
R202 (R245). Step.lean only calls these. -/

namespace Sys2Proof.Machine

/-- The next command word of the host's list, and the state with the rest of the list (R245). -/
def nextCommand (s : State) : Option (CmdWord × State) :=
  match s.commands with
  | [] => none
  | w :: rest => some (w, { s with commands := rest })

/-- An accepted word's whole effect: the command's rule, or the error action of R202 (R74, R245). -/
def runWord (w : CmdWord) (s : State) : Host.Outcome State Fault Refusal :=
  match decode s.histEn w with
  | .command i => exec i s
  | .illegal c => .next (raiseIllegal c w s)

/-- An idle unit: it accepts the host's next command, or holds its registers and waits (R214, R232). -/
def stepIdle (s : State) : Host.Outcome State Fault Refusal :=
  match nextCommand s with
  | none => .next s
  | some (w, t) => runWord w t

/-- One transaction: up to the next retirement. A busy unit accepts nothing (R53) and completes the command in flight
(log entry 3); before the first reset nothing is specified (R233). -/
def stepUnit (s : State) : Host.Outcome State Fault Refusal :=
  match s.phase with
  | .powerUp => .fault .notReset
  | .executing job work => .next (finishJob job work s)
  | .idle => stepIdle s

/-- The state with `w` as the command word the host presents next, to an idle unit. DESIGN CHOICE, unsafe (log entry 2):
the unit is made idle whatever it was. A command in flight is abandoned. A unit not reset since power-up, for which R233
leaves the command port and every register unspecified, is taken as an idle unit whose registers are what the fields
hold; without `presentWord` a step there faults `notReset`. -/
def presentWord (w : CmdWord) (s : State) : State :=
  { s with phase := .idle, commands := w :: s.commands }

end Sys2Proof.Machine
end

