-- ==== Sys2Proof/Machine/Step.lean ====
section
/-! DEFINITION. One step of the unit at the transaction level of R245. -/

namespace Sys2Proof.Machine

/-- One step: "takes the next command word from the host's list, decodes it, and applies its rule or rule R202"
(R245). -/
def step (s : State) : Host.Outcome State Fault Refusal := stepUnit s

/-- The state in which the very next step accepts the table word `w` (log entry 2): the host's list starts with it and
the unit is made idle, also one not reset since power-up, which is the model's choice beside R233 (`presentWord`). The
`cmd` port takes the low 20 bits (R35). -/
def State.withFetchWord (s : State) (nbits w : Nat) : State :=
  presentWord (BitVec.ofNat 20 (w % 2 ^ nbits)) s

end Sys2Proof.Machine
end

