-- ==== Sys2Proof/Machine/Assembler.lean ====
section
/-! DEFINITION. The assembler's lines (R77) and the pseudo-instructions (R78). They are the host's tool; the unit sees
only the words. A line is a list of characters without its line end. -/

namespace Sys2Proof.Machine

/-- The pseudo-instructions (R78). -/
inductive Pseudo where
  | rdst
  | burn
  | seedSim (s : Imm)
  | seedAcc (s : Imm)
  deriving DecidableEq, Repr

/-- The expansions (R78). -/
def Pseudo.expand : Pseudo → List Instr
  | .rdst => [.advn 0]
  | .burn => [.advn 176]
  | .seedSim s => [.seed s, .sim]
  | .seedAcc s => [.seed s, .simacc]

/-- The value of a decimal digit. -/
def decDigit (c : Char) : Option Nat :=
  if 48 ≤ c.toNat ∧ c.toNat ≤ 57 then some (c.toNat - 48) else none

/-- The value of a hexadecimal digit, in either case. -/
def hexDigit (c : Char) : Option Nat :=
  if 48 ≤ c.toNat ∧ c.toNat ≤ 57 then some (c.toNat - 48)
  else if 65 ≤ c.toNat ∧ c.toNat ≤ 70 then some (c.toNat - 55)
  else if 97 ≤ c.toNat ∧ c.toNat ≤ 102 then some (c.toNat - 87)
  else none

/-- The value of digits in a base, after `acc`; none at a character that is no digit. -/
def digitsFrom (base : Nat) (digit : Char → Option Nat) : Nat → List Char → Option Nat
  | acc, [] => some acc
  | acc, c :: cs =>
    match digit c with
    | none => none
    | some d => digitsFrom base digit (acc * base + d) cs

/-- "An operand is a decimal number or a `0x`-prefixed hexadecimal number" (R77). At least one digit. -/
def parseNumber : List Char → Option Nat
  | [] => none
  | '0' :: 'x' :: [] => none
  | '0' :: 'x' :: cs => digitsFrom 16 hexDigit 0 cs
  | cs => digitsFrom 10 decDigit 0 cs

/-- A letter in upper case: "Mnemonics are case-insensitive" (R77). -/
def upperChar (c : Char) : Char :=
  if 97 ≤ c.toNat ∧ c.toNat ≤ 122 then Char.ofNat (c.toNat - 32) else c

/-- A character that separates tokens (log entry 11). -/
def isBlank (c : Char) : Bool := c == ' ' || c == '\t'

/-- The tokens of a line up to its comment, which starts at `;` (R77). `cur` holds the token being read, reversed. -/
def tokens : List Char → List Char → List (List Char)
  | cur, [] => if cur.isEmpty then [] else [cur.reverse]
  | cur, c :: cs =>
    if c == ';' then (if cur.isEmpty then [] else [cur.reverse])
    else if isBlank c then (if cur.isEmpty then tokens [] cs else cur.reverse :: tokens [] cs)
    else tokens (c :: cur) cs

/-- The mnemonics that take no operand (R77, R78). -/
def bareMnemonic (m : List Char) : Option (List Instr) :=
  if m = ['N', 'O', 'P'] then some [.nop]
  else if m = ['A', 'D', 'V'] then some [.adv]
  else if m = ['D', 'R', 'O', 'P'] then some [.drop]
  else if m = ['S', 'I', 'M'] then some [.sim]
  else if m = ['S', 'I', 'M', 'A', 'C', 'C'] then some [.simacc]
  else if m = ['H', 'C', 'L', 'R'] then some [.hclr]
  else if m = ['R', 'D', 'S', 'T'] then some Pseudo.rdst.expand
  else if m = ['B', 'U', 'R', 'N'] then some Pseudo.burn.expand
  else none

/-- The mnemonics that take one operand, with its range: 0 to 65535, and 0 to 5 for HREAD (R77, R78). -/
def operandMnemonic (m : List Char) (v : Nat) : Option (List Instr) :=
  if m = ['S', 'E', 'E', 'D'] then (if v < 65536 then some [.seed (BitVec.ofNat 16 v)] else none)
  else if m = ['A', 'D', 'V', 'N'] then (if v < 65536 then some [.advn (BitVec.ofNat 16 v)] else none)
  else if m = ['H', 'R', 'E', 'A', 'D'] then (if v < 6 then some [.hread (BitVec.ofNat 3 v)] else none)
  else if m = ['S', 'E', 'E', 'D', 'S', 'I', 'M'] then
    (if v < 65536 then some (Pseudo.seedSim (BitVec.ofNat 16 v)).expand else none)
  else if m = ['S', 'E', 'E', 'D', 'A', 'C', 'C'] then
    (if v < 65536 then some (Pseudo.seedAcc (BitVec.ofNat 16 v)).expand else none)
  else none

/-- The commands of a line `MNEMONIC [operand] [; comment]`; none is an assembly error (R77, log entry 11). -/
def parseLine (line : List Char) : Option (List Instr) :=
  match tokens [] line with
  | [m] => bareMnemonic (m.map upperChar)
  | [m, o] =>
    match parseNumber o with
    | none => none
    | some v => operandMnemonic (m.map upperChar) v
  | _ => none

/-- The words of a line: "The assembler emits `{OP, IMM}`" (R77). -/
def assembleLine (line : List Char) : Option (List CmdWord) := (parseLine line).map (List.map encode)

end Sys2Proof.Machine
end

