-- ==== Sys2Proof/Machine/Clock.lean ====
section
/-! DEFINITION. The unit at the level of its clock and ports: the handshake of R52 and R53, one rising edge, the latency
of each command (R241), reset at an edge (R230, R231), and what the output ports show (R35, R36). It performs one
advance N a clock cycle (R241, log entry 8). The transaction step does not use this file. -/

namespace Sys2Proof.Machine

/-- The input ports at a rising edge of `clk` (R35). -/
structure Pins where
  rst : Bool
  cmdValid : Bool
  cmd : CmdWord
  deriving DecidableEq, Repr

/-- The output ports (R35). -/
structure Ports where
  cmdReady : Bool
  stateO : Gen
  resultO : ResultWord
  statusO : ResultWord
  illcmdO : CmdWord
  deriving DecidableEq, Repr

/-- The sequencer goes on with a job and its working copy; nothing architected changes (R34, R36). -/
def keepBusy (job : Job) (work : Gen) (s : State) : State := { s with phase := .executing job work }

/-- The sequencer returns to IDLE at the retire edge (R53). -/
def toIdle (s : State) : State := { s with phase := .idle }

/-- The protocol step after the drop of pair i: the next pair, or the burn after the last (R151). -/
def afterPair (i : Fin 4) : ProtocolStep :=
  if h : i.val + 1 < 4 then .pairAdvance ⟨i.val + 1, h⟩ else .burn 0

/-- The protocol step after a burn advance with `done` done before it: the next one, or the final drop (R151). -/
def afterBurn (done : Fin 176) : ProtocolStep :=
  if h : done.val + 1 < 176 then .burn ⟨done.val + 1, h⟩ else .lastDrop

/-- One advance of a SIM or SIMACC in flight; `w` is the state after it (R151, R240). -/
def tickProtocol (accumulate : Bool) (step : ProtocolStep) (dv : DropVec) (w : Gen) (s : State) : State :=
  match step with
  | .pairAdvance i => keepBusy (.outcome accumulate (.pairDrop i) dv) w s
  | .pairDrop i =>
    if lowByte w = 0 then keepBusy (.outcome accumulate (.pairDrop i) dv) w s
    else keepBusy (.outcome accumulate (afterPair i) (assignBit dv i (isHit w))) w s
  | .burn done => keepBusy (.outcome accumulate (afterBurn done) dv) w s
  | .lastDrop =>
    if lowByte w = 0 then keepBusy (.outcome accumulate .lastDrop dv) w s
    else
      match s.hist with
      | none => toIdle s
      | some h => retireOutcome accumulate w (assignBit dv 4 (isHit w)) h (toIdle s)

/-- One clock cycle of the command in flight: one advance of the working copy, and the retirement if it was the last
(R240, R241). -/
def tickJob (job : Job) (work : Gen) (s : State) : State :=
  match job with
  | .advn left =>
    if left.toNat ≤ 1 then retireAdvance (N work) (toIdle s) else keepBusy (.advn (left - 1)) (N work) s
  | .drop =>
    if lowByte (N work) = 0 then keepBusy .drop (N work) s
    else retireDrop (N work) (isHit (N work)) (toIdle s)
  | .outcome accumulate step dv => tickProtocol accumulate step dv (N work) s

/-- The acceptance edge of a legal command: a one-cycle command retires at it, and any other does its first advance
(R53, R240). -/
def beginInstr (i : Instr) (s : State) : State :=
  match i with
  | .nop => s
  | .seed v => loadGen v s
  | .adv => retireAdvance (N s.gen) s
  | .drop => tickJob .drop s.gen s
  | .advn n => if n = 0 then retireAdvance s.gen s else tickJob (.advn n) s.gen s
  | .sim => withHist i s fun _ => tickJob (.outcome false (.pairAdvance 0) 0) s.gen s
  | .simacc => withHist i s fun _ => tickJob (.outcome true (.pairAdvance 0) 0) s.gen s
  | .hclr => withHist i s fun h => clearCounters h s
  | .hread k => withHist i s fun h =>
    match counterSlot k with
    | none => raiseIllegal .indexOutOfRange (encode i) s
    | some j => readCounter h j s

/-- The acceptance edge of a word; an illegal word retires at it (R202). -/
def acceptWord (w : CmdWord) (s : State) : State :=
  match decode s.histEn w with
  | .command i => beginInstr i s
  | .illegal c => raiseIllegal c w s

/-- One rising edge of `clk`. Reset wins over everything (R204, R231). A command is accepted when `rst = 0`,
`cmd_valid = 1` and the unit is idle (R52); while it is busy the command port is not looked at. Before the first reset
the registers stay unspecified (R233). -/
def clockEdge (p : Pins) (s : State) : State :=
  if p.rst then resetUnit s
  else
    match s.phase with
    | .powerUp => s
    | .executing job work => tickJob job work s
    | .idle => if p.cmdValid then acceptWord p.cmd s else s

/-- A sequence of rising edges, the first pins first. -/
def clockEdges (ps : List Pins) (s : State) : State := ps.foldl (fun t p => clockEdge p t) s

/-- `cmd_ready = !BUSY && !rst` (R35, R53). DESIGN CHOICE, unsafe: before the first reset, where R233 leaves the command
port open, it answers `!rst` (log entry 13). What the port shows there is drawn by `outputs`. -/
def cmdReady (rst : Bool) (s : State) : Bool := !s.busy && !rst

/-- `status_o` where the spec leaves its registers open. HISTEN is hardwired and the reserved bits 31:11 "always read 0"
(R27; 93_implementation_defined.md §2: "Not left open"), and DVEC reads 0 without option HIST (R27, D12; DEDUCED,
unsafe if R36 is read against R27 there, log entry 6); DBIT, ILL, CAUSE and DVEC show as drawn, and BUSY as given. -/
def drawnStatus (busy : Bool) (draw : ResultWord) (s : State) : ResultWord :=
  statusWord s.histEn (if s.histEn then draw.extractLsb' 5 5 else 0) (draw.extractLsb' 3 2) (draw.getLsbD 2)
    (draw.getLsbD 1) busy

/-- The output ports. `draw` stands for whatever the wires show where the spec leaves it open ("any value",
93_implementation_defined.md): a statement about `outputs` holds for every `draw`. While BUSY = 0 every output shows
its register exactly; while BUSY = 1 only `cmd_ready`, BUSY, HISTEN and the bits that always read 0 are fixed (R36, R27).
Before the first reset BUSY and `cmd_ready` are open too (R233), so `State.busy` and `cmdReady` are not read there. -/
def outputs (rst : Bool) (draw : Ports) (s : State) : Ports :=
  match s.phase with
  | .idle =>
    { cmdReady := cmdReady rst s, stateO := s.gen, resultO := s.result, statusO := s.status, illcmdO := s.illcmd }
  | .executing _ _ => { draw with cmdReady := cmdReady rst s, statusO := drawnStatus true draw.statusO s }
  | .powerUp => { draw with statusO := drawnStatus (draw.statusO.getLsbD 0) draw.statusO s }

/-- The advances a job in flight still needs, which is the cycles until it retires (R241). -/
def jobTicks (job : Job) (work : Gen) : Nat :=
  match job with
  | .advn left => max 1 left.toNat
  | .drop => (drop work).advances
  | .outcome _ step dv => (protocolFrom step { state := work, dv := dv, advances := 0 }).advances

/-- The latency L of a command from state `g`, in cycles (the table of R241). -/
def instrLatency (i : Instr) (g : Gen) : Nat :=
  match i with
  | .nop => 1
  | .seed _ => 1
  | .adv => 1
  | .drop => (drop g).advances
  | .advn n => max 1 n.toNat
  | .sim => (outcome g).advances
  | .simacc => (outcome g).advances
  | .hclr => 1
  | .hread _ => 1

/-- The latency of a word; an illegal word takes one cycle (R241). -/
def wordLatency (histEn : Bool) (w : CmdWord) (g : Gen) : Nat :=
  match decode histEn w with
  | .command i => instrLatency i g
  | .illegal _ => 1

end Sys2Proof.Machine
end

