-- ==== Sys2Proof/Safety.lean ====
section
/-! DEFINITION. What claims about runs are stated in: the observation at the end of a run (R246), a run without an
illegal command (R206), the invariant of the unit, and commands run one after another. -/

namespace Sys2Proof.Machine

/-- The tuple observed at the end of a run: "(`STATE`, `RESULT`, `STATUS`, `ILLCMD`, and `HIST` when present)"
(R246). -/
structure Observation where
  state : Gen
  result : ResultWord
  status : ResultWord
  illcmd : CmdWord
  hist : Option (Vector Counter 6)
  deriving DecidableEq, Repr

/-- The observation of a state (R246). Before the first reset it reads the fields as they are, the model's choice beside
R233 (log entry 13). -/
def State.observe (s : State) : Observation :=
  { state := s.gen, result := s.result, status := s.status, illcmd := s.illcmd, hist := s.hist.map HistPart.counters }

/-- A run has ended: its last command has retired and BUSY = 0 (R246). -/
def State.ended (s : State) : Bool := s.phase == .idle && s.commands.isEmpty

/-- A safe end of a run: no accepted command was illegal. "A claim about a command sequence takes `ILL = 0` at its end
as a premise" (R206). -/
def State.clean (s : State) : Bool := s.ended && !s.ill

/-- The error record is what R202 leaves: nothing recorded while ILL = 0 (R27, R28), and with ILL = 1 a word this unit
calls illegal, under its own cause. -/
def State.errorRecordOk (s : State) : Prop :=
  if s.ill then ∃ c, decode s.histEn s.illcmd = .illegal c ∧ s.cause = c.code
  else s.cause = 0 ∧ s.illcmd = 0

/-- The command in flight is one the sequencer can be in (R34): an ADVN with an advance left, a DROP whose last advance
gave a zero low byte, a SIM or SIMACC on a unit with option HIST (R73). -/
def State.sequencerOk (s : State) : Prop :=
  match s.phase with
  | .powerUp => True
  | .idle => True
  | .executing (.advn left) _ => left ≠ 0
  | .executing .drop work => lowByte work = 0
  | .executing (.outcome _ _ _) _ => s.histEn = true

/-- The invariant of the unit. -/
def State.Inv (s : State) : Prop := s.errorRecordOk ∧ s.sequencerOk

/-- Commands one after another, from the first of the list, stopping where one does not answer a next state. -/
def execAll : List Instr → State → Host.Outcome State Fault Refusal
  | [], s => .next s
  | i :: is, s =>
    match exec i s with
    | .next t => execAll is t
    | .fault f => .fault f
    | .refused r => .refused r

end Sys2Proof.Machine
end

