-- ==== Sys2Proof/Certificates/Slice0/Obligations.lean ====
section
/-! DEFINITION. The statements for the provers. Each cites the rule of spec/ it formalises, or says what it is derived
from. -/

open Sys2Proof Sys2Proof.Machine

/-! ### Encoding (30_encoding.md) -/

/-- The examples of R79, both ways, on a unit with option HIST. -/
def Obligations.ExampleWordsEncodeAndDecode : Prop :=
  (encode .nop = 0x00000 ∧ decode true 0x00000 = .command .nop) ∧
  (encode (.seed 0x0FD3) = 0x10FD3 ∧ decode true 0x10FD3 = .command (.seed 0x0FD3)) ∧
  (encode .adv = 0x20000 ∧ decode true 0x20000 = .command .adv) ∧
  (encode .drop = 0x30000 ∧ decode true 0x30000 = .command .drop) ∧
  (encode (.advn 176) = 0x400B0 ∧ decode true 0x400B0 = .command (.advn 176)) ∧
  (encode .sim = 0x80000 ∧ decode true 0x80000 = .command .sim) ∧
  (encode .simacc = 0x90000 ∧ decode true 0x90000 = .command .simacc) ∧
  (encode .hclr = 0xA0000 ∧ decode true 0xA0000 = .command .hclr) ∧
  (encode (.hread 2) = 0xB0002 ∧ decode true 0xB0002 = .command (.hread 2)) ∧
  (encode (.hread 6) = 0xB0006 ∧ decode true 0xB0006 = .illegal .indexOutOfRange) ∧
  decode true 0x50000 = .illegal .reservedOpcode ∧
  decode true 0x20001 = .illegal .reservedOperandBits

/-- Decoding the word of a command gives the command back, for every command and operand the unit has. -/
def Obligations.DecodeOfEncodeIsTheCommand : Prop :=
  ∀ (histEn : Bool) (i : Instr), i.wellFormed = true → i.available histEn = true →
    decode histEn (encode i) = .command i

/-- A word that decodes to a command is that command's word, and the command is well formed and available: every bit of
the word is accounted for. -/
def Obligations.DecodedWordIsTheEncoding : Prop :=
  ∀ (histEn : Bool) (w : CmdWord) (i : Instr), decode histEn w = .command i →
    i.wellFormed = true ∧ i.available histEn = true ∧ encode i = w

/-- Which words are illegal under which cause, the first condition met being the one reported (R203, with the
conditions of R201 and the examples of R203). -/
def Obligations.IllegalWordsByFirstCauseMet : Prop :=
  (∀ (histEn : Bool) (w : CmdWord),
    let op := (opcode w).toNat
    let reserved := op ∈ [0x5, 0x6, 0x7, 0xC, 0xD, 0xE, 0xF] ∨ (op ∈ [0x8, 0x9, 0xA, 0xB] ∧ histEn = false)
    let operandBits := (op ∈ [0x0, 0x2, 0x3, 0x8, 0x9, 0xA] ∧ operand w ≠ 0) ∨
      (op = 0xB ∧ indexReserved (operand w) ≠ 0)
    let range := op = 0xB ∧ 6 ≤ (indexField (operand w)).toNat
    (decode histEn w = .illegal .reservedOpcode ↔ reserved) ∧
    (decode histEn w = .illegal .reservedOperandBits ↔ ¬ reserved ∧ operandBits) ∧
    (decode histEn w = .illegal .indexOutOfRange ↔ ¬ reserved ∧ ¬ operandBits ∧ range)) ∧
  decode true 0xB0006 = .illegal .indexOutOfRange ∧
  decode true 0xB0008 = .illegal .reservedOperandBits ∧
  decode true 0x5FFFF = .illegal .reservedOpcode

/-- The number of legal and of illegal words with and without option HIST (the totals of R76). -/
def Obligations.NumberOfLegalWords : Prop :=
  Nat.count (fun n => isLegal true (BitVec.ofNat 20 n) = true) (2 ^ 20) = 131084 ∧
  Nat.count (fun n => isLegal true (BitVec.ofNat 20 n) = false) (2 ^ 20) = 917492 ∧
  Nat.count (fun n => isLegal false (BitVec.ofNat 20 n) = true) (2 ^ 20) = 131075 ∧
  Nat.count (fun n => isLegal false (BitVec.ofNat 20 n) = false) (2 ^ 20) = 917501

/-- Every line the assembler takes is the words of well-formed commands, all legal on a unit with option HIST (R77). -/
def Obligations.AssembledWordsAreLegalCommands : Prop :=
  ∀ (line : List Char) (ws : List CmdWord), assembleLine line = some ws →
    ∃ is : List Instr, ws = is.map encode ∧ is ≠ [] ∧
      ∀ i ∈ is, i.wellFormed = true ∧ decode true (encode i) = .command i

/-! ### The datapath (40_advance.md) -/

/-- R104 in the source's own operators on unbounded integers. -/
def Obligations.DatapathIsTheSourceFormula : Prop :=
  ∀ s : Gen,
    let low := s.toNat &&& 0xFF
    let high := (s.toNat >>> 8) &&& 0xFF
    let r1 := low * 5
    let r2 := (high * 5) &&& 0xFF
    let combined := r1 + (r2 <<< 8) + 0x100
    (N s).toNat = ((combined >>> 16) + combined + 0x11) &&& 0xFFFF

/-- R101: every signal of the datapath stays in its range, so it fits its width. -/
def Obligations.DatapathSignalsStayInRange : Prop :=
  ∀ s : Gen,
    (lowByte s).toNat ≤ 0xFF ∧ (highByte s).toNat ≤ 0xFF ∧
    (r1 s ≤ 0x4FB ∧ r1 s < 2 ^ 11) ∧ (p2 s ≤ 0x4FB ∧ p2 s < 2 ^ 11) ∧
    (r2 s ≤ 0xFF ∧ r2 s < 2 ^ 8) ∧ (sh s ≤ 0xFF00 ∧ sh s < 2 ^ 16 ∧ sh s % 2 ^ 8 = 0) ∧
    (0x100 ≤ combined s ∧ combined s ≤ 0x104FB ∧ combined s < 2 ^ 17) ∧
    foldCarry s ≤ 1 ∧
    (0x111 ≤ foldSum s ∧ foldSum s ≤ 0x1050D ∧ foldSum s < 2 ^ 17)

/-- The datapath on wires of the widths of R101 computes N: no stage loses a bit. -/
def Obligations.FixedWidthDatapathComputesN : Prop :=
  ∀ s : Gen, nWires s = N s

/-- R105: the closed form of N. -/
def Obligations.ClosedFormOfN : Prop :=
  ∀ s : Gen, N s = BitVec.ofNat 16 (5 * s.toNat + 0x111 + foldCarry s)

/-- R106: exactly when the fold carries, row by row, with the counts. -/
def Obligations.StatesThatCarry : Prop :=
  (∀ s : Gen, foldCarry s = 0 ∨ foldCarry s = 1) ∧
  (∀ s : Gen, foldCarry s = 1 ↔ 0xFF00 ≤ r1 s + sh s) ∧
  (∀ s : Gen,
    let row := fun (high product firstLow : Nat) =>
      (highByte s).toNat = high ∧ r2 s = product ∧ firstLow ≤ (lowByte s).toNat
    (foldCarry s = 1 ↔
      row 0x33 0xFF 0x00 ∨ row 0x66 0xFE 0x34 ∨ row 0x99 0xFD 0x67 ∨ row 0xCC 0xFC 0x9A ∨ row 0xFF 0xFB 0xCD)) ∧
  (∀ row ∈ [(0x33, 256), (0x66, 204), (0x99, 153), (0xCC, 102), (0xFF, 51)],
    Nat.count (fun low => foldCarry (BitVec.ofNat 16 (row.1 * 256 + low)) = 1) 256 = row.2) ∧
  Nat.count (fun n => foldCarry (BitVec.ofNat 16 n) = 1) 65536 = 766

/-- The low byte of the next state comes from the low byte and the carry alone (the formula of R107). -/
def Obligations.LowByteOfTheNextState : Prop :=
  ∀ s : Gen, lowByte (N s) = BitVec.ofNat 8 (5 * (lowByte s).toNat + 0x11 + foldCarry s)

/-- N has no fixed point and no value with three preimages, and is not injective (from R108). -/
def Obligations.NoFixedPointAndAtMostTwoPreimages : Prop :=
  (∀ s : Gen, N s ≠ s) ∧
  (∀ a b c : Gen, N a = N b → N b = N c → a = b ∨ b = c ∨ a = c) ∧
  N 0x0000 = 0x0111 ∧ N 0x3333 = 0x0111

/-! ### The drop predicate (41_drop.md) -/

/-- R130: `drop` returns exactly what the uncapped loop returns, from every state. -/
def Obligations.DropIsTheUncappedLoop : Prop :=
  ∀ (s s' : Gen) (b : Bool) (n : Nat),
    DropRuns s s' b n ↔ drop s = { state := s', bit := b, advances := n }

/-- R132: one or two advances, the bit 0 when two, with the counts over all states. -/
def Obligations.DropTakesOneOrTwoAdvances : Prop :=
  (∀ s : Gen, (drop s).advances = 1 ∨ (drop s).advances = 2) ∧
  (∀ s : Gen, (drop s).advances = 2 → (drop s).bit = false) ∧
  Nat.count (fun n => (drop (BitVec.ofNat 16 n)).advances = 1) 65536 = 65279 ∧
  Nat.count (fun n => (drop (BitVec.ofNat 16 n)).advances = 2) 65536 = 257

/-- R134: the drop bit is settled by the first advance. -/
def Obligations.DropBitIsSettledByTheFirstAdvance : Prop :=
  ∀ s : Gen, (drop s).bit = (lowByte (N s) == 0x01) ∧ (lowByte (N s) = 0 → (drop s).bit = false)

/-- R135: the 257 states from which DROP returns 1. -/
def Obligations.StatesThatDrop : Prop :=
  (∀ s : Gen, (drop s).bit = true ↔ BitVec.ofNat 8 (5 * (lowByte s).toNat + 0x11 + foldCarry s) = 0x01) ∧
  (∀ s : Gen, (drop s).bit = true ↔
    (lowByte s = 0x30 ∧ foldCarry s = 0) ∨ (lowByte s = 0x63 ∧ foldCarry s = 1)) ∧
  (∀ s : Gen, (drop s).bit = true ↔ (lowByte s = 0x30 ∧ s ≠ 0x3330) ∨ s = 0x3363 ∨ s = 0x6663) ∧
  foldCarry 0x3330 = 1 ∧
  Nat.count (fun n => lowByte (BitVec.ofNat 16 n) = 0x30 ∧ n ≠ 0x3330) 65536 = 255 ∧
  Nat.count (fun n => (drop (BitVec.ofNat 16 n)).bit = true) 65536 = 257

/-- R136: the 257 states from which DROP needs a second advance. -/
def Obligations.StatesThatNeedASecondAdvance : Prop :=
  (∀ s : Gen, (drop s).advances = 2 ↔ lowByte (N s) = 0) ∧
  (∀ s : Gen, (drop s).advances = 2 ↔
    (lowByte s = 0x63 ∧ foldCarry s = 0) ∨ (lowByte s = 0x96 ∧ foldCarry s = 1)) ∧
  (∀ s : Gen, (drop s).advances = 2 ↔
    (lowByte s = 0x63 ∧ s ≠ 0x3363 ∧ s ≠ 0x6663) ∨ s = 0x3396 ∨ s = 0x6696 ∨ s = 0x9996) ∧
  Nat.count (fun n => lowByte (BitVec.ofNat 16 n) = 0x63 ∧ n ≠ 0x3363 ∧ n ≠ 0x6663) 65536 = 254 ∧
  Nat.count (fun n => (drop (BitVec.ofNat 16 n)).advances = 2) 65536 = 257 ∧
  Nat.count (fun n => lowByte (BitVec.ofNat 16 n) = 0x00) 65536 = 256 ∧
  (∀ s : Gen, lowByte s = 0x00 → lowByte (N s) = 0x11 ∨ lowByte (N s) = 0x12)

/-! ### The commands' results: each answers a next state from every state, and this is it -/

/-- R110: NOP's word, its effect and its exception. -/
def Obligations.NopHasNoEffect : Prop :=
  encode .nop = 0x00000 ∧
  (∀ s : State, exec .nop s = .next s) ∧
  (∀ (histEn : Bool) (w : CmdWord), opcode w = 0x0 → operand w ≠ 0 →
    decode histEn w = .illegal .reservedOperandBits)

/-- R112: SEED's words, its effect, and no exception. -/
def Obligations.SeedLoadsTheState : Prop :=
  (∀ v : Imm, encode (.seed v) = (0x1 : BitVec 4) ++ v) ∧
  (∀ (v : Imm) (s : State), exec (.seed v) s = .next { s with gen := v }) ∧
  (∀ (histEn : Bool) (w : CmdWord), opcode w = 0x1 → decode histEn w = .command (.seed (operand w)))

/-- R114: ADV's word, its effect and its exception. -/
def Obligations.AdvTicksOnce : Prop :=
  encode .adv = 0x20000 ∧
  (∀ s : State, exec .adv s = .next { s with gen := N s.gen, result := (N s.gen).setWidth 32 }) ∧
  (∀ (histEn : Bool) (w : CmdWord), opcode w = 0x2 → operand w ≠ 0 →
    decode histEn w = .illegal .reservedOperandBits)

/-- R117: ADVN's words, its effect, and no exception; ADVN 0 keeps STATE and ADVN 1 is ADV. -/
def Obligations.AdvnTicksNTimes : Prop :=
  (∀ n : Imm, encode (.advn n) = (0x4 : BitVec 4) ++ n) ∧
  (∀ (n : Imm) (s : State),
    exec (.advn n) s = .next { s with gen := N^[n.toNat] s.gen, result := (N^[n.toNat] s.gen).setWidth 32 }) ∧
  (∀ s : State, exec (.advn 0) s = .next { s with result := s.gen.setWidth 32 }) ∧
  (∀ s : State, exec (.advn 1) s = exec .adv s) ∧
  (∀ (histEn : Bool) (w : CmdWord), opcode w = 0x4 → decode histEn w = .command (.advn (operand w)))

/-- R133: DROP's word, its effect and its exception; the loop is the uncapped one. -/
def Obligations.DropReturnsTheDropBit : Prop :=
  encode .drop = 0x30000 ∧
  (∀ (s : State) (s' : Gen) (b : Bool) (n : Nat), DropRuns s.gen s' b n →
    exec .drop s = .next { s with gen := s', dbit := b, result := if b then 0x00000001 else 0x00000000 }) ∧
  (∀ s : State, ∃ s' b n, DropRuns s.gen s' b n) ∧
  (∀ (histEn : Bool) (w : CmdWord), opcode w = 0x3 → operand w ≠ 0 →
    decode histEn w = .illegal .reservedOperandBits)

/-- R151: the outcome protocol written out, its five drops in order and its 176 burn advances, with `k` the number of
true bits. -/
def Obligations.OutcomeIsThePairsTheBurnAndTheLastDrop : Prop :=
  ∀ s : Gen,
    let a := drop (N s)
    let b := drop (N a.state)
    let c := drop (N b.state)
    let d := drop (N c.state)
    let e := drop (N^[176] d.state)
    let dv := (outcome s).dv
    (outcome s).state = e.state ∧
    (dv.getLsbD 0 = a.bit ∧ dv.getLsbD 1 = b.bit ∧ dv.getLsbD 2 = c.bit ∧ dv.getLsbD 3 = d.bit ∧
      dv.getLsbD 4 = e.bit) ∧
    (onesCount dv).toNat = a.bit.toNat + b.bit.toNat + c.bit.toNat + d.bit.toNat + e.bit.toNat

/-- R153: the ones counter adds the five bits, and its value is 0 to 5. -/
def Obligations.OnesCounterAddsTheFiveBits : Prop :=
  ∀ dv : DropVec,
    (onesCount dv).toNat = (dv.getLsbD 0).toNat + (dv.getLsbD 1).toNat + (dv.getLsbD 2).toNat
      + (dv.getLsbD 3).toNat + (dv.getLsbD 4).toNat ∧
    (onesCount dv).toNat ≤ 5

/-- The advances of one protocol run: 180 and those of its five drops, 185 to 190 (the bounds of R154). -/
def Obligations.ProtocolTakes185To190Advances : Prop :=
  ∀ s : Gen,
    let a := drop (N s)
    let b := drop (N a.state)
    let c := drop (N b.state)
    let d := drop (N c.state)
    let e := drop (N^[176] d.state)
    (outcome s).advances = 180 + a.advances + b.advances + c.advances + d.advances + e.advances ∧
    185 ≤ (outcome s).advances ∧ (outcome s).advances ≤ 190

/-- R158: SIM's word, its effect and its exceptions. -/
def Obligations.SimRunsTheProtocol : Prop :=
  encode .sim = 0x80000 ∧
  (∀ (s : State) (h : HistPart), s.hist = some h →
    exec .sim s = .next { s with
      gen := (outcome s.gen).state
      result := (onesCount (outcome s.gen).dv).setWidth 32
      hist := some { h with dvec := (outcome s.gen).dv } }) ∧
  (∀ w : CmdWord, opcode w = 0x8 →
    decode false w = .illegal .reservedOpcode ∧
    (operand w ≠ 0 → decode true w = .illegal .reservedOperandBits))

/-- R161: SIMACC's word, its effect and its exceptions. All counters but the outcome's are as before. -/
def Obligations.SimaccCountsTheOutcome : Prop :=
  encode .simacc = 0x90000 ∧
  (∀ (s : State) (h : HistPart), s.hist = some h →
    ∃ h' : HistPart,
      exec .simacc s = .next { s with
        gen := (outcome s.gen).state
        result := (onesCount (outcome s.gen).dv).setWidth 32
        hist := some h' } ∧
      h'.dvec = (outcome s.gen).dv ∧
      ∀ j : Fin 6, h'.counters[j] =
        if j.val = (onesCount (outcome s.gen).dv).toNat
        then BitVec.ofNat 32 (h.counters[j].toNat + 1) else h.counters[j]) ∧
  (∀ w : CmdWord, opcode w = 0x9 →
    decode false w = .illegal .reservedOpcode ∧
    (operand w ≠ 0 → decode true w = .illegal .reservedOperandBits))

/-- R164: HCLR's word, its effect and its exceptions. -/
def Obligations.HclrClearsEveryCounter : Prop :=
  encode .hclr = 0xA0000 ∧
  (∀ (s : State) (h : HistPart), s.hist = some h →
    ∃ h' : HistPart, exec .hclr s = .next { s with hist := some h' } ∧
      h'.dvec = h.dvec ∧ ∀ k : Fin 6, h'.counters[k] = 0) ∧
  (∀ w : CmdWord, opcode w = 0xA →
    decode false w = .illegal .reservedOpcode ∧
    (operand w ≠ 0 → decode true w = .illegal .reservedOperandBits))

/-- R167: HREAD's words, its effect and its exceptions. -/
def Obligations.HreadReturnsTheCounter : Prop :=
  (∀ k : CounterIndex, encode (.hread k) = (0xB : BitVec 4) ++ k.setWidth 16) ∧
  (∀ (s : State) (h : HistPart) (k : CounterIndex) (hk : k.toNat < 6), s.hist = some h →
    exec (.hread k) s = .next { s with result := h.counters[k.toNat] }) ∧
  (∀ w : CmdWord, opcode w = 0xB →
    decode false w = .illegal .reservedOpcode ∧
    (indexReserved (operand w) ≠ 0 → decode true w = .illegal .reservedOperandBits) ∧
    (indexReserved (operand w) = 0 → 6 ≤ (indexField (operand w)).toNat →
      decode true w = .illegal .indexOutOfRange))

/-- A command of option HIST run on a unit without it, and HREAD of 6 or 7, record their own word as illegal (from R73
and R201; that `exec` of such a term records the term's word is the model's choice, log entry 5). -/
def Obligations.UnavailableCommandsRecordTheirWord : Prop :=
  (∀ (i : Instr) (s : State), i.needsHist = true → s.hist = none →
    exec i s = .next { s with
      ill := true
      cause := if s.ill then s.cause else 1
      illcmd := if s.ill then s.illcmd else encode i }) ∧
  (∀ (k : CounterIndex) (s : State) (h : HistPart), s.hist = some h → 6 ≤ k.toNat →
    exec (.hread k) s = .next { s with
      ill := true
      cause := if s.ill then s.cause else 3
      illcmd := if s.ill then s.illcmd else encode (.hread k) })

/-- The outcome protocol from primitives: four pairs of ADV and DROP, ADVN 176 and a last DROP leave the same STATE as
one SIM, and the five DROPs' results add up to SIM's and stand in DVEC (R151 against R114, R117 and R133). -/
def Obligations.SimEqualsTheProtocolFromPrimitives : Prop :=
  ∀ s : State, s.histEn = true →
    ∃ a b c d e t : State,
      execAll [.adv, .drop] s = .next a ∧ execAll [.adv, .drop] a = .next b ∧
      execAll [.adv, .drop] b = .next c ∧ execAll [.adv, .drop] c = .next d ∧
      execAll [.advn 176, .drop] d = .next e ∧ exec .sim s = .next t ∧
      t.gen = e.gen ∧
      t.result = a.result + b.result + c.result + d.result + e.result ∧
      t.dvec = BitVec.ofBool e.dbit ++ BitVec.ofBool d.dbit ++ BitVec.ofBool c.dbit ++ BitVec.ofBool b.dbit
        ++ BitVec.ofBool a.dbit

/-- ADVN n leaves the STATE of n ADVs, and for n ≥ 1 their RESULT (from R118). -/
def Obligations.AdvnEqualsRepeatedAdv : Prop :=
  ∀ (n : Imm) (s : State), ∃ t u,
    exec (.advn n) s = .next t ∧ execAll (List.replicate n.toNat .adv) s = .next u ∧
    t.gen = u.gen ∧ (1 ≤ n.toNat → t.result = u.result)

/-- R78: the pseudo-instructions' expansions and effects. -/
def Obligations.PseudoInstructionsHaveTheirEffect : Prop :=
  (Pseudo.rdst.expand = [.advn 0] ∧
    ∀ s : State, execAll Pseudo.rdst.expand s = .next { s with result := s.gen.setWidth 32 }) ∧
  (Pseudo.burn.expand = [.advn 176] ∧
    ∀ s : State, execAll Pseudo.burn.expand s =
      .next { s with gen := N^[176] s.gen, result := (N^[176] s.gen).setWidth 32 }) ∧
  (∀ v : Imm, (Pseudo.seedSim v).expand = [.seed v, .sim] ∧
    ∀ s : State, s.histEn = true → ∃ t, execAll (Pseudo.seedSim v).expand s = .next t ∧
      t.result = (onesCount (outcome v).dv).setWidth 32 ∧ ∀ k, t.counter k = s.counter k) ∧
  (∀ v : Imm, (Pseudo.seedAcc v).expand = [.seed v, .simacc] ∧
    ∀ (s : State) (h : HistPart), s.hist = some h → ∃ t, execAll (Pseudo.seedAcc v).expand s = .next t ∧
      t.result = (onesCount (outcome v).dv).setWidth 32 ∧
      ∀ k : Fin 6, t.counter k =
        some (if k.val = (onesCount (outcome v).dv).toNat then h.counters[k] + 1 else h.counters[k]))

/-! ### Frames and whole-machine rules -/

/-- The frame of every command, by the "written by" column of R20: DBIT only by DROP; DVEC only by SIM and SIMACC; the
counters only by SIMACC and HCLR; STATE and RESULT only by the commands that return or load a value; the error
registers by no command that is well formed and available; HISTEN, the sequencer and the host's list by none. -/
def Obligations.CommandsWriteOnlyTheirRegisters : Prop :=
  ∀ (i : Instr) (s t : State), exec i s = .next t →
    (i ∈ [.nop, .hclr] ∨ (∃ k, i = .hread k) → t.gen = s.gen) ∧
    (i ∈ [.nop, .hclr] ∨ (∃ v, i = .seed v) → t.result = s.result) ∧
    (i ≠ .drop → t.dbit = s.dbit) ∧
    (i ≠ .sim → i ≠ .simacc → t.dvec = s.dvec) ∧
    (i ≠ .simacc → i ≠ .hclr → ∀ k, t.counter k = s.counter k) ∧
    (i.wellFormed = true → i.available s.histEn = true →
      t.ill = s.ill ∧ t.cause = s.cause ∧ t.illcmd = s.illcmd) ∧
    t.histEn = s.histEn ∧ t.phase = s.phase ∧ t.commands = s.commands

/-- The STATE any available command leaves, the RESULT of ADV, ADVN, DROP, SIM and SIMACC, the DBIT of DROP and the DVEC
of SIM and SIMACC depend on STATE and HIST_EN alone, whatever the other registers held (from R100, R134 and R155). -/
def Obligations.StateAndAdvancingResultsDependOnStateAlone : Prop :=
  ∀ (i : Instr) (s s' t t' : State), s.gen = s'.gen → s.histEn = s'.histEn → i.available s.histEn = true →
    exec i s = .next t → exec i s' = .next t' →
    t.gen = t'.gen ∧
    (i ∈ [.adv, .drop, .sim, .simacc] ∨ (∃ n, i = .advn n) → t.result = t'.result) ∧
    (i = .drop → t.dbit = t'.dbit) ∧
    (i ∈ [.sim, .simacc] → t.dvec = t'.dvec)

/-- SEED, HCLR and NOP are idempotent, and HREAD leaves every counter and repeats its value (from R57). -/
def Obligations.IdempotentCommands : Prop :=
  (∀ (v : Imm) (s : State), execAll [.seed v, .seed v] s = exec (.seed v) s) ∧
  (∀ s : State, execAll [.hclr, .hclr] s = exec .hclr s) ∧
  (∀ s : State, execAll [.nop, .nop] s = exec .nop s) ∧
  (∀ (k : CounterIndex) (s : State), execAll [.hread k, .hread k] s = exec (.hread k) s) ∧
  (∀ (k : CounterIndex) (s t : State) (j : Fin 6), exec (.hread k) s = .next t → t.counter j = s.counter j)

/-! ### The illegal command (60_exceptions.md) -/

/-- R202: what accepting an illegal word does, as a step and at its acceptance edge, where it retires. -/
def Obligations.IllegalWordRecordsTheFirstError : Prop :=
  (∀ (s : State) (w : CmdWord) (rest : List CmdWord) (c : IllegalCause),
    s.phase = .idle → s.commands = w :: rest → decode s.histEn w = .illegal c →
    step s = .next { s with
      ill := true
      cause := if s.ill = false then c.code else s.cause
      illcmd := if s.ill = false then w else s.illcmd
      commands := rest }) ∧
  (∀ (s : State) (p : Pins) (c : IllegalCause),
    s.phase = .idle → p.rst = false → p.cmdValid = true → decode s.histEn p.cmd = .illegal c →
    clockEdge p s = { s with
      ill := true
      cause := if s.ill = false then c.code else s.cause
      illcmd := if s.ill = false then p.cmd else s.illcmd } ∧
    cmdReady false (clockEdge p s) = true)

/-- R206: ILL, CAUSE and ILLCMD are sticky under every step and every edge without reset, an illegal command while ILL
= 1 records nothing, and reset clears them. -/
def Obligations.ErrorRecordIsStickyUntilReset : Prop :=
  (∀ s t : State, s.ill = true → step s = .next t → t.ill = true ∧ t.cause = s.cause ∧ t.illcmd = s.illcmd) ∧
  (∀ (s : State) (p : Pins), s.ill = true → p.rst = false →
    (clockEdge p s).ill = true ∧ (clockEdge p s).cause = s.cause ∧ (clockEdge p s).illcmd = s.illcmd) ∧
  (∀ (s : State) (w : CmdWord) (c : IllegalCause), s.ill = true → decode s.histEn w = .illegal c →
    runWord w s = .next s) ∧
  (∀ (s : State) (p : Pins), p.rst = true →
    (clockEdge p s).ill = false ∧ (clockEdge p s).cause = 0 ∧ (clockEdge p s).illcmd = 0)

/-! ### Steps -/

/-- A step of an idle unit is the rule of the decoded command, on the state whose host list has lost that word (from
R245). -/
def Obligations.StepRunsTheDecodedCommand : Prop :=
  ∀ (s : State) (w : CmdWord) (rest : List CmdWord) (i : Instr),
    s.phase = .idle → s.commands = w :: rest → decode s.histEn w = .command i →
    step s = exec i { s with commands := rest }

/-- The very next step after `withFetchWord` runs the word it places, from any state. That a unit busy, or not reset since
power-up, is made idle for it is the model's choice (log entry 2). -/
def Obligations.PlacedWordRunsNext : Prop :=
  ∀ (s : State) (w : Nat) (i : Instr), w < 2 ^ 20 → decode s.histEn (BitVec.ofNat 20 w) = .command i →
    step (s.withFetchWord 24 w) = exec i { s with phase := .idle }

/-- A step of an idle unit accepts exactly the head of the host's list and leaves the rest and an idle unit (from
R243). -/
def Obligations.EachCommandIsAcceptedOnce : Prop :=
  ∀ (s t : State) (w : CmdWord) (rest : List CmdWord),
    s.phase = .idle → s.commands = w :: rest → step s = .next t →
    t.commands = rest ∧ t.phase = .idle ∧ runWord w { s with commands := rest } = .next t

/-- An idle unit without a command holds every register; a unit not reset since power-up takes no step (from R214 and
R233). -/
def Obligations.IdleUnitHoldsAndUnresetUnitStops : Prop :=
  (∀ s : State, s.phase = .idle → s.commands = [] → step s = .next s) ∧
  (∀ (s : State) (p : Pins), s.phase = .idle → p.rst = false → p.cmdValid = false → clockEdge p s = s) ∧
  (∀ s : State, s.phase = .powerUp → step s = .fault .notReset) ∧
  (∀ s : State, step (powerLoss s) = .fault .notReset)

/-! ### Reset (70_reset_and_hazards.md) -/

/-- R230: a reset edge gives every register its reset value, from any state. -/
def Obligations.ResetEdgeSetsEveryRegister : Prop :=
  ∀ (s : State) (p : Pins), p.rst = true →
    let t := clockEdge p s
    t.gen = 0x0000 ∧ t.result = 0x00000000 ∧ t.dbit = false ∧ t.ill = false ∧ t.cause = 0 ∧ t.illcmd = 0x00000 ∧
    t.dvec = 0 ∧ (s.histEn = true → ∀ k, t.counter k = some 0x00000000) ∧
    (s.histEn = false → ∀ k, t.counter k = none) ∧
    t.busy = false ∧ t.phase = .idle ∧ t.histEn = s.histEn

/-- R231: an edge with `rst = 1` accepts nothing and leaves nothing of a command in flight, whatever it was and however
near its retirement; the unit's registers and sequencer are those of the reset state. -/
def Obligations.ResetAbandonsTheCommandInFlight : Prop :=
  (∀ s : State, cmdReady true s = false) ∧
  (∀ (s : State) (p q : Pins) (job : Job) (work : Gen), p.rst = true → q.rst = true →
    clockEdge p { s with phase := .executing job work } = clockEdge q s) ∧
  (∀ (s : State) (p : Pins), p.rst = true → { clockEdge p s with commands := [] } = State.resetOf s.histEn)

/-- No edge, reset included, touches the host's list of commands. The list is the model's own field (log entry 2), and
that a reset edge leaves it alone is the model's choice (log entry 9). -/
def Obligations.ClockEdgeLeavesTheHostsList : Prop :=
  ∀ (s : State) (p : Pins), (clockEdge p s).commands = s.commands

/-- R232: after a reset edge the unit is idle and ready, waits without a command, and accepts the first one. -/
def Obligations.UnitIsReadyAfterReset : Prop :=
  ∀ (s : State) (p : Pins), p.rst = true →
    let t := clockEdge p s
    t.busy = false ∧ cmdReady false t = true ∧
    (∀ q : Pins, q.rst = false → q.cmdValid = false → clockEdge q t = t) ∧
    (∀ q : Pins, q.rst = false → q.cmdValid = true → clockEdge q t = acceptWord q.cmd t)

/-- The model's reset state is a unit with the default HIST_EN = 1 (log entry 1) at the values of R230, and its
observation is the reset vector of 95_test_vectors.md §7. -/
def Obligations.ObservationOfTheResetState : Prop :=
  State.reset.observe =
    { state := 0x0000, result := 0x00000000, status := 0x00000400, illcmd := 0x00000
      hist := some (Vector.replicate 6 0) } ∧
  (State.resetOf false).status = 0x00000000 ∧ core.reset = State.reset

/-! ### Invariants -/

/-- The invariant holds after reset, with and without option HIST. -/
def Obligations.InvariantHoldsAtReset : Prop :=
  State.reset.Inv ∧ (∀ histEn, (State.resetOf histEn).Inv) ∧
  (∀ (s : State) (p : Pins), p.rst = true → (clockEdge p s).Inv)

/-- Every step keeps the invariant: the error record is that of an illegal word, and the sequencer is in a phase of
R34. -/
def Obligations.StepKeepsTheInvariant : Prop :=
  ∀ s t : State, s.Inv → step s = .next t → t.Inv

/-- Every rising edge keeps the invariant, whatever the pins. -/
def Obligations.ClockEdgeKeepsTheInvariant : Prop :=
  ∀ (s : State) (p : Pins), s.Inv → (clockEdge p s).Inv

/-- HISTEN is hardwired: no step and no edge, reset included, changes it (from R27). -/
def Obligations.HistenIsHardwired : Prop :=
  (∀ s t : State, step s = .next t → t.histEn = s.histEn) ∧
  (∀ (s : State) (p : Pins), (clockEdge p s).histEn = s.histEn)

/-- The fields of STATUS in their places (from R27). That it says so of a unit not reset since power-up too, where R233
leaves every register open, is the model's choice (log entry 13). -/
def Obligations.StatusFieldsInTheirPlaces : Prop :=
  ∀ s : State,
    s.status.getLsbD 0 = s.busy ∧ s.status.getLsbD 1 = s.dbit ∧ s.status.getLsbD 2 = s.ill ∧
    s.status.extractLsb' 3 2 = s.cause ∧ s.status.extractLsb' 5 5 = s.dvec ∧
    s.status.getLsbD 10 = s.histEn ∧ s.status.extractLsb' 11 21 = 0 ∧
    (s.histEn = false → s.status.extractLsb' 5 5 = 0)

/-! ### The clock and the ports -/

/-- While BUSY = 0 every output shows its register; while BUSY = 1 `cmd_ready`, BUSY and HISTEN are fixed, STATUS[31:11]
read 0, and the others can show any value (from R36 and R27). That the reserved bits, and DVEC on a unit without option
HIST, read 0 also while BUSY = 1 is how the model reads R36 beside R27 (log entry 6). -/
def Obligations.OutputsShowRegistersWhenNotBusy : Prop :=
  (∀ (rst : Bool) (draw : Ports) (s : State), s.phase = .idle →
    outputs rst draw s =
      { cmdReady := !rst, stateO := s.gen, resultO := s.result, statusO := s.status, illcmdO := s.illcmd }) ∧
  (∀ (rst : Bool) (draw : Ports) (s : State), s.busy = true →
    (outputs rst draw s).cmdReady = false ∧ (outputs rst draw s).statusO.getLsbD 0 = true ∧
    (outputs rst draw s).statusO.getLsbD 10 = s.histEn) ∧
  (∀ (rst : Bool) (draw : Ports) (s : State),
    (outputs rst draw s).statusO.extractLsb' 11 21 = 0 ∧
    (s.histEn = false → (outputs rst draw s).statusO.extractLsb' 5 5 = 0)) ∧
  (∀ (rst : Bool) (s : State) (v : Gen) (r st : ResultWord) (w : CmdWord), s.busy = true → ∃ draw,
    (outputs rst draw s).stateO = v ∧ (outputs rst draw s).resultO = r ∧ (outputs rst draw s).illcmdO = w ∧
    (∀ i, 1 ≤ i → i ≤ 4 → (outputs rst draw s).statusO.getLsbD i = st.getLsbD i) ∧
    (s.histEn = true → ∀ i, 5 ≤ i → i ≤ 9 → (outputs rst draw s).statusO.getLsbD i = st.getLsbD i))

/-- BUSY after the acceptance edge says whether the latency is more than one cycle, with one advance a cycle (log entry
8), and `cmd_ready` is 0 exactly when BUSY or `rst` is 1 (from R53). R233 leaves BUSY and `cmd_ready` open before the first
reset: that `State.busy` and `cmdReady` answer `false` and `!rst` there is the model's choice (log entry 13), and what the
ports show there is as drawn (log entry 6). -/
def Obligations.BusyAfterAcceptanceOfLongCommands : Prop :=
  (∀ (s : State) (p : Pins), s.phase = .idle → p.rst = false → p.cmdValid = true →
    ((clockEdge p s).busy = true ↔ 1 < wordLatency s.histEn p.cmd s.gen)) ∧
  (∀ (s : State) (rst : Bool), cmdReady rst s = false ↔ s.busy = true ∨ rst = true) ∧
  (∀ (rst : Bool) (draw : Ports) (s : State), s.phase = .powerUp →
    (outputs rst draw s).cmdReady = draw.cmdReady ∧
    (outputs rst draw s).statusO.getLsbD 0 = draw.statusO.getLsbD 0)

/-- A busy unit does not look at the command port, and until the edge at which it retires nothing but the sequencer's
hidden state changes (from R52, R34 and R56). -/
def Obligations.BusyUnitChangesNothingBeforeRetirement : Prop :=
  ∀ (s : State) (p q : Pins), s.busy = true → p.rst = false → q.rst = false →
    clockEdge p s = clockEdge q s ∧
    ((clockEdge p s).busy = true → clockEdge p s = { s with phase := (clockEdge p s).phase })

/-- The latencies of R241, with the bounds it gives for DROP, SIM and SIMACC. They are those of a unit with one advance a
cycle (log entry 8). -/
def Obligations.LatencyTable : Prop :=
  (∀ (histEn : Bool) (g : Gen) (w : CmdWord) (c : IllegalCause),
    decode histEn w = .illegal c → wordLatency histEn w g = 1) ∧
  (∀ (histEn : Bool) (g : Gen) (w : CmdWord) (i : Instr), decode histEn w = .command i →
    wordLatency histEn w g = instrLatency i g) ∧
  (∀ (g : Gen) (v : Imm) (k : CounterIndex), ∀ i ∈ [Instr.nop, .seed v, .hclr, .hread k, .adv],
    instrLatency i g = 1) ∧
  (∀ (g : Gen) (n : Imm), instrLatency (.advn n) g = max 1 n.toNat) ∧
  (∀ g : Gen, instrLatency .drop g = (drop g).advances ∧
    (instrLatency .drop g = 1 ∨ instrLatency .drop g = 2)) ∧
  (∀ g : Gen, ∀ i ∈ [Instr.sim, .simacc], 185 ≤ instrLatency i g ∧ instrLatency i g ≤ 190)

/-- The clocked unit refines the transaction model. From an idle unit, the acceptance edge of any word and the
edges after it, up to its latency, with anything on the command port, reach exactly the state the transaction gives, and
at every edge before that the unit is busy and no register has changed (from R240 and R245). The exact number of edges
is that of a unit with one advance a cycle, the model's choice beside R241 (log entry 8). -/
def Obligations.ClockedUnitRefinesTheTransaction : Prop :=
  ∀ (s : State) (w : CmdWord) (later : List Pins),
    s.phase = .idle → later.length + 1 = wordLatency s.histEn w s.gen → (∀ p ∈ later, p.rst = false) →
    let edges := { rst := false, cmdValid := true, cmd := w } :: later
    runWord w s = .next (clockEdges edges s) ∧
    (clockEdges edges s).phase = .idle ∧
    ∀ n, 1 ≤ n → n < edges.length →
      (clockEdges (edges.take n) s).busy = true ∧ { clockEdges (edges.take n) s with phase := .idle } = s

/-- The step of a busy unit is its clock edges up to the retirement of the command in flight (from R240 and R56; that one
step does this is the model's choice, log entry 3). The exact number of edges is that of a unit with one advance a cycle,
the model's choice beside R241 (log entry 8). -/
def Obligations.StepOfABusyUnitIsItsEdges : Prop :=
  ∀ (s : State) (job : Job) (work : Gen) (ps : List Pins), s.phase = .executing job work →
    ps.length = jobTicks job work → (∀ p ∈ ps, p.rst = false) →
    step s = .next (clockEdges ps s) ∧ (clockEdges ps s).phase = .idle ∧
    ∀ n, n < ps.length → (clockEdges (ps.take n) s).busy = true
end

