-- ==== Sys2Proof/Laws/Datapath.lean ====
section
/-! SUPPORT. The datapath as arithmetic on `Nat`, and what an advance does to the low byte. -/

namespace Sys2Proof.Machine

theorem lowByte_toNat (s : Gen) : (lowByte s).toNat = s.toNat % 256 := by
  simp [lowByte, BitVec.extractLsb'_toNat]

theorem highByte_toNat (s : Gen) : (highByte s).toNat = s.toNat / 256 := by
  have := s.isLt
  simp only [highByte, BitVec.extractLsb'_toNat, Nat.shiftRight_eq_div_pow]
  omega

theorem r1_eq (s : Gen) : r1 s = s.toNat % 256 * 5 := by
  rw [r1, lowByte_toNat, byteMultiplier]

theorem r2_eq (s : Gen) : r2 s = s.toNat / 256 * 5 % 256 := by
  rw [r2, p2, highByte_toNat, byteMultiplier]; rfl

theorem combined_eq (s : Gen) :
    combined s = s.toNat % 256 * 5 + s.toNat / 256 * 5 % 256 * 256 + 256 := by
  rw [combined, sh, r1_eq, r2_eq, preFoldAddend]; rfl

theorem foldCarry_eq (s : Gen) :
    foldCarry s = (s.toNat % 256 * 5 + s.toNat / 256 * 5 % 256 * 256 + 256) / 65536 := by
  rw [foldCarry, combined_eq]; rfl

theorem foldCarry_le_one (s : Gen) : foldCarry s ≤ 1 := by
  rw [foldCarry_eq]; omega

theorem N_toNat (s : Gen) : (N s).toNat = (foldCarry s + combined s + 17) % 65536 := by
  simp only [N, foldSum, foldAddend, BitVec.toNat_ofNat]

@[simp] theorem advances_zero (s : Gen) : advances 0 s = s := rfl

@[simp] theorem advances_succ (n : Nat) (s : Gen) : advances (n + 1) s = advances n (N s) := rfl

theorem advances_add (m n : Nat) (s : Gen) : advances (m + n) s = advances n (advances m s) := by
  induction m generalizing s with
  | zero => rw [Nat.zero_add, advances_zero]
  | succ m ih => rw [Nat.add_right_comm, advances_succ, advances_succ, ih]

end Sys2Proof.Machine
end

