-- ==== Sys2Proof/Laws/Drop.lean ====
section
/-! SUPPORT. What one advance of the drop loop does: the two equations of `drop`, and that a second advance never has
a zero low byte. -/

namespace Sys2Proof.Machine

theorem dropLoop_stop {k : Nat} {s : Gen} (h : DropEnds (k + 1) s) (n : Nat) (hz : lowByte (N s) ≠ 0) :
    dropLoop (k + 1) s h n = { state := N s, bit := isHit (N s), advances := n + 1 } := by
  rw [dropLoop, dif_neg hz]

theorem dropLoop_again {k : Nat} {s : Gen} (h : DropEnds (k + 1) s) (n : Nat) (hz : lowByte (N s) = 0) :
    dropLoop (k + 1) s h n = dropLoop k (N s) (h hz) (n + 1) := by
  rw [dropLoop, dif_pos hz]

/-- After a zero low byte the next advance ends the loop. -/
theorem lowByte_second_ne_zero {s : Gen} (hz : lowByte s = 0) : lowByte (N s) ≠ 0 := by
  rcases lowByte_N_of_zero hz with e | e <;> rw [e] <;> decide

theorem isHit_of_lowByte_zero {s : Gen} (hz : lowByte s = 0) : isHit (N s) = false := by
  rcases lowByte_N_of_zero hz with e | e <;> rw [isHit, e] <;> decide

theorem drop_stop {s : Gen} (hz : lowByte (N s) ≠ 0) :
    drop s = { state := N s, bit := isHit (N s), advances := 1 } := dropLoop_stop _ 0 hz

theorem drop_again {s : Gen} (hz : lowByte (N s) = 0) :
    drop s = { state := N (N s), bit := isHit (N (N s)), advances := 2 } := by
  have hn := lowByte_second_ne_zero hz
  rw [drop, dropLoop_again _ 0 hz, dropLoop_stop _ _ hn]

/-- One turn of the loop: a zero low byte leads to the drop of the new state, one advance later. -/
theorem drop_unfold {s : Gen} (hz : lowByte (N s) = 0) :
    drop s = { drop (N s) with advances := (drop (N s)).advances + 1 } := by
  rw [drop_again hz, drop_stop (lowByte_second_ne_zero hz)]

theorem drop_advances_pos (s : Gen) : 1 ≤ (drop s).advances := by
  by_cases hz : lowByte (N s) = 0
  · rw [drop_again hz]; exact Nat.le_succ 1
  · rw [drop_stop hz]

end Sys2Proof.Machine
end

