-- ==== Sys2Proof/Laws/Protocol.lean ====
section
/-! SUPPORT. The protocol run step by step: what one advance of each protocol step leaves to do, and that the advance
count never depends on where the count starts. -/

namespace Sys2Proof.Machine

/-- A run with its advance count moved by `n`. -/
def ProtocolRun.later (r : ProtocolRun) (n : Nat) : ProtocolRun := { r with advances := r.advances + n }

theorem runDrop_later (r : ProtocolRun) (n i : Nat) : runDrop (r.later n) i = (runDrop r i).later n := by
  simp only [runDrop, ProtocolRun.later, ProtocolRun.mk.injEq, true_and]
  omega

theorem runAdvances_later (r : ProtocolRun) (n k : Nat) :
    runAdvances (r.later n) k = (runAdvances r k).later n := by
  simp only [runAdvances, ProtocolRun.later, ProtocolRun.mk.injEq, true_and]
  omega

theorem runPair_later (r : ProtocolRun) (n : Nat) (i : Fin 4) :
    runPair (r.later n) i = (runPair r i).later n := by
  rw [runPair, runPair, runAdvances_later, runDrop_later]

theorem runPairs_later (is : List (Fin 4)) (r : ProtocolRun) (n : Nat) :
    runPairs is (r.later n) = (runPairs is r).later n := by
  induction is generalizing r with
  | nil => rfl
  | cons i is ih =>
    show runPairs is (runPair (r.later n) i) = (runPairs is (runPair r i)).later n
    rw [runPair_later, ih]

theorem runTail_later (r : ProtocolRun) (n : Nat) : runTail (r.later n) = (runTail r).later n := by
  rw [runTail, runTail, runLastDrop, runLastDrop, runAdvances_later, runDrop_later]

theorem protocolFrom_later (step : ProtocolStep) (r : ProtocolRun) (n : Nat) :
    protocolFrom step (r.later n) = (protocolFrom step r).later n := by
  cases step with
  | pairAdvance i => simp only [protocolFrom, runPairs_later, runTail_later]
  | pairDrop i => simp only [protocolFrom, runDrop_later, runPairs_later, runTail_later]
  | burn done => simp only [protocolFrom, runLastDrop, runAdvances_later, runDrop_later]
  | lastDrop => simp only [protocolFrom, runLastDrop, runDrop_later]

theorem runDrop_again {w : Gen} (dv : DropVec) (i : Nat) (hz : lowByte (N w) = 0) :
    runDrop ⟨w, dv, 0⟩ i = (runDrop ⟨N w, dv, 0⟩ i).later 1 := by
  simp only [runDrop, ProtocolRun.later, drop_unfold hz, ProtocolRun.mk.injEq, true_and]
  omega

theorem runDrop_stop {w : Gen} (dv : DropVec) (i : Nat) (hz : lowByte (N w) ≠ 0) :
    runDrop ⟨w, dv, 0⟩ i = (⟨N w, assignBit dv i (isHit (N w)), 0⟩ : ProtocolRun).later 1 := by
  simp only [runDrop, ProtocolRun.later, drop_stop hz]

theorem runAdvances_zero (r : ProtocolRun) : runAdvances r 0 = r := rfl

theorem runAdvances_succ (w : Gen) (dv : DropVec) (n : Nat) :
    runAdvances ⟨w, dv, 0⟩ (n + 1) = (runAdvances ⟨N w, dv, 0⟩ n).later 1 := by
  simp only [runAdvances, ProtocolRun.later, advances_succ, ProtocolRun.mk.injEq, true_and]
  omega

theorem runAdvances_one (w : Gen) (dv : DropVec) :
    runAdvances ⟨w, dv, 0⟩ 1 = (⟨N w, dv, 0⟩ : ProtocolRun).later 1 := rfl

/-- The advance of a pair leaves its drop to do. -/
theorem protocolFrom_pairAdvance (i : Fin 4) (w : Gen) (dv : DropVec) :
    protocolFrom (.pairAdvance i) ⟨w, dv, 0⟩ = (protocolFrom (.pairDrop i) ⟨N w, dv, 0⟩).later 1 := by
  have h : pairOrder.drop i = i :: pairOrder.drop (i + 1) := by revert i; decide
  rw [← protocolFrom_later, protocolFrom, protocolFrom, h]
  rfl

/-- A zero low byte in a pair's drop leaves that drop to do again. -/
theorem protocolFrom_pairDrop_again (i : Fin 4) {w : Gen} (dv : DropVec) (hz : lowByte (N w) = 0) :
    protocolFrom (.pairDrop i) ⟨w, dv, 0⟩ = (protocolFrom (.pairDrop i) ⟨N w, dv, 0⟩).later 1 := by
  simp only [protocolFrom, runDrop_again dv i hz, runPairs_later, runTail_later]

/-- A nonzero low byte in a pair's drop settles its bit. -/
theorem protocolFrom_pairDrop_stop (i : Fin 4) {w : Gen} (dv : DropVec) (hz : lowByte (N w) ≠ 0) :
    protocolFrom (.pairDrop i) ⟨w, dv, 0⟩
      = (protocolFrom (afterPair i) ⟨N w, assignBit dv i (isHit (N w)), 0⟩).later 1 := by
  rw [← protocolFrom_later, protocolFrom, runDrop_stop dv i hz]
  by_cases h : i.val + 1 < 4
  · rw [afterPair, dif_pos h, protocolFrom]
  · have hi : pairOrder.drop (i + 1) = [] := by
      have : i.val = 3 := by omega
      rw [this]; rfl
    rw [afterPair, dif_neg h, protocolFrom, hi]
    rfl

theorem protocolFrom_burn (done : Fin 176) (w : Gen) (dv : DropVec) :
    protocolFrom (.burn done) ⟨w, dv, 0⟩ = (protocolFrom (afterBurn done) ⟨N w, dv, 0⟩).later 1 := by
  have hd := done.isLt
  by_cases h : done.val + 1 < 176
  · have e : burnCount - done.val = burnCount - (done.val + 1) + 1 := by simp only [burnCount]; omega
    rw [← protocolFrom_later, protocolFrom, afterBurn, dif_pos h, protocolFrom, e, runAdvances_succ,
      runAdvances_later]
  · have e : burnCount - done.val = 0 + 1 := by simp only [burnCount]; omega
    rw [← protocolFrom_later, protocolFrom, afterBurn, dif_neg h, protocolFrom, e, runAdvances_succ,
      runAdvances_zero]

theorem protocolFrom_lastDrop_again {w : Gen} (dv : DropVec) (hz : lowByte (N w) = 0) :
    protocolFrom .lastDrop ⟨w, dv, 0⟩ = (protocolFrom .lastDrop ⟨N w, dv, 0⟩).later 1 := by
  simp only [protocolFrom, runLastDrop, runDrop_again dv 4 hz]

theorem protocolFrom_lastDrop_stop {w : Gen} (dv : DropVec) (hz : lowByte (N w) ≠ 0) :
    protocolFrom .lastDrop ⟨w, dv, 0⟩ = ⟨N w, assignBit dv 4 (isHit (N w)), 1⟩ := by
  simp only [protocolFrom, runLastDrop, runDrop, drop_stop hz]

/-- The whole protocol is the protocol from its first step. -/
theorem outcome_eq_protocolFrom (s : Gen) : outcome s = protocolFrom (.pairAdvance 0) ⟨s, 0, 0⟩ := rfl

/-- The protocol as its operations in order: four pairs, the burn, the last drop. -/
theorem outcome_eq_runs (s : Gen) :
    outcome s = runDrop (runAdvances (runPair (runPair (runPair (runPair ⟨s, 0, 0⟩ 0) 1) 2) 3) 176) 4 := by
  simp only [outcome, runTail, runLastDrop, runPairs, pairOrder, burnCount, List.foldl]

/-- The advance before a drop is one N. -/
theorem runPair_state (r : ProtocolRun) (i : Fin 4) : (runPair r i).state = (drop (N r.state)).state := rfl

theorem runPair_dv (r : ProtocolRun) (i : Fin 4) :
    (runPair r i).dv = assignBit r.dv i (drop (N r.state)).bit := rfl

theorem runPair_advances (r : ProtocolRun) (i : Fin 4) :
    (runPair r i).advances = r.advances + 1 + (drop (N r.state)).advances := rfl

/-- Every step of the protocol still needs an advance. -/
theorem protocolFrom_advances_pos (step : ProtocolStep) (w : Gen) (dv : DropVec) :
    1 ≤ (protocolFrom step ⟨w, dv, 0⟩).advances := by
  have later : ∀ r : ProtocolRun, 1 ≤ (r.later 1).advances := fun r => Nat.le_add_left 1 r.advances
  cases step with
  | pairAdvance i => rw [protocolFrom_pairAdvance]; exact later _
  | pairDrop i =>
    by_cases hz : lowByte (N w) = 0
    · rw [protocolFrom_pairDrop_again i dv hz]; exact later _
    · rw [protocolFrom_pairDrop_stop i dv hz]; exact later _
  | burn done => rw [protocolFrom_burn]; exact later _
  | lastDrop =>
    by_cases hz : lowByte (N w) = 0
    · rw [protocolFrom_lastDrop_again dv hz]; exact later _
    · rw [protocolFrom_lastDrop_stop dv hz]

end Sys2Proof.Machine
end

