-- ==== Sys2Proof/Laws/State.lean ====
section
/-! SUPPORT. One lemma per field per update of State, so that no later proof unfolds a record update. -/

namespace Sys2Proof.Machine

/-! ### raiseIllegal -/

@[simp] theorem raiseIllegal_gen (c : IllegalCause) (w : CmdWord) (s : State) :
    (raiseIllegal c w s).gen = s.gen := rfl
@[simp] theorem raiseIllegal_result (c : IllegalCause) (w : CmdWord) (s : State) :
    (raiseIllegal c w s).result = s.result := rfl
@[simp] theorem raiseIllegal_dbit (c : IllegalCause) (w : CmdWord) (s : State) :
    (raiseIllegal c w s).dbit = s.dbit := rfl
@[simp] theorem raiseIllegal_ill (c : IllegalCause) (w : CmdWord) (s : State) : (raiseIllegal c w s).ill = true := rfl
@[simp] theorem raiseIllegal_cause (c : IllegalCause) (w : CmdWord) (s : State) :
    (raiseIllegal c w s).cause = if s.ill then s.cause else c.code := rfl
@[simp] theorem raiseIllegal_illcmd (c : IllegalCause) (w : CmdWord) (s : State) :
    (raiseIllegal c w s).illcmd = if s.ill then s.illcmd else w := rfl
@[simp] theorem raiseIllegal_hist (c : IllegalCause) (w : CmdWord) (s : State) :
    (raiseIllegal c w s).hist = s.hist := rfl
@[simp] theorem raiseIllegal_phase (c : IllegalCause) (w : CmdWord) (s : State) :
    (raiseIllegal c w s).phase = s.phase := rfl
@[simp] theorem raiseIllegal_commands (c : IllegalCause) (w : CmdWord) (s : State) :
    (raiseIllegal c w s).commands = s.commands := rfl

/-! ### loadGen -/

@[simp] theorem loadGen_gen (v : Gen) (s : State) : (loadGen v s).gen = v := rfl
@[simp] theorem loadGen_result (v : Gen) (s : State) : (loadGen v s).result = s.result := rfl
@[simp] theorem loadGen_dbit (v : Gen) (s : State) : (loadGen v s).dbit = s.dbit := rfl
@[simp] theorem loadGen_ill (v : Gen) (s : State) : (loadGen v s).ill = s.ill := rfl
@[simp] theorem loadGen_cause (v : Gen) (s : State) : (loadGen v s).cause = s.cause := rfl
@[simp] theorem loadGen_illcmd (v : Gen) (s : State) : (loadGen v s).illcmd = s.illcmd := rfl
@[simp] theorem loadGen_hist (v : Gen) (s : State) : (loadGen v s).hist = s.hist := rfl
@[simp] theorem loadGen_phase (v : Gen) (s : State) : (loadGen v s).phase = s.phase := rfl
@[simp] theorem loadGen_commands (v : Gen) (s : State) : (loadGen v s).commands = s.commands := rfl

/-! ### retireAdvance -/

@[simp] theorem retireAdvance_gen (g : Gen) (s : State) : (retireAdvance g s).gen = g := rfl
@[simp] theorem retireAdvance_result (g : Gen) (s : State) : (retireAdvance g s).result = resultOfGen g := rfl
@[simp] theorem retireAdvance_dbit (g : Gen) (s : State) : (retireAdvance g s).dbit = s.dbit := rfl
@[simp] theorem retireAdvance_ill (g : Gen) (s : State) : (retireAdvance g s).ill = s.ill := rfl
@[simp] theorem retireAdvance_cause (g : Gen) (s : State) : (retireAdvance g s).cause = s.cause := rfl
@[simp] theorem retireAdvance_illcmd (g : Gen) (s : State) : (retireAdvance g s).illcmd = s.illcmd := rfl
@[simp] theorem retireAdvance_hist (g : Gen) (s : State) : (retireAdvance g s).hist = s.hist := rfl
@[simp] theorem retireAdvance_phase (g : Gen) (s : State) : (retireAdvance g s).phase = s.phase := rfl
@[simp] theorem retireAdvance_commands (g : Gen) (s : State) : (retireAdvance g s).commands = s.commands := rfl

/-! ### retireDrop -/

@[simp] theorem retireDrop_gen (g : Gen) (b : Bool) (s : State) : (retireDrop g b s).gen = g := rfl
@[simp] theorem retireDrop_result (g : Gen) (b : Bool) (s : State) : (retireDrop g b s).result = resultOfBit b := rfl
@[simp] theorem retireDrop_dbit (g : Gen) (b : Bool) (s : State) : (retireDrop g b s).dbit = b := rfl
@[simp] theorem retireDrop_ill (g : Gen) (b : Bool) (s : State) : (retireDrop g b s).ill = s.ill := rfl
@[simp] theorem retireDrop_cause (g : Gen) (b : Bool) (s : State) : (retireDrop g b s).cause = s.cause := rfl
@[simp] theorem retireDrop_illcmd (g : Gen) (b : Bool) (s : State) : (retireDrop g b s).illcmd = s.illcmd := rfl
@[simp] theorem retireDrop_hist (g : Gen) (b : Bool) (s : State) : (retireDrop g b s).hist = s.hist := rfl
@[simp] theorem retireDrop_phase (g : Gen) (b : Bool) (s : State) : (retireDrop g b s).phase = s.phase := rfl
@[simp] theorem retireDrop_commands (g : Gen) (b : Bool) (s : State) : (retireDrop g b s).commands = s.commands := rfl

/-! ### retireOutcome -/

@[simp] theorem retireOutcome_gen (a : Bool) (g : Gen) (dv : DropVec) (h : HistPart) (s : State) :
    (retireOutcome a g dv h s).gen = g := rfl
@[simp] theorem retireOutcome_result (a : Bool) (g : Gen) (dv : DropVec) (h : HistPart) (s : State) :
    (retireOutcome a g dv h s).result = resultOfOutcome (onesCount dv) := rfl
@[simp] theorem retireOutcome_dbit (a : Bool) (g : Gen) (dv : DropVec) (h : HistPart) (s : State) :
    (retireOutcome a g dv h s).dbit = s.dbit := rfl
@[simp] theorem retireOutcome_ill (a : Bool) (g : Gen) (dv : DropVec) (h : HistPart) (s : State) :
    (retireOutcome a g dv h s).ill = s.ill := rfl
@[simp] theorem retireOutcome_cause (a : Bool) (g : Gen) (dv : DropVec) (h : HistPart) (s : State) :
    (retireOutcome a g dv h s).cause = s.cause := rfl
@[simp] theorem retireOutcome_illcmd (a : Bool) (g : Gen) (dv : DropVec) (h : HistPart) (s : State) :
    (retireOutcome a g dv h s).illcmd = s.illcmd := rfl
@[simp] theorem retireOutcome_hist (a : Bool) (g : Gen) (dv : DropVec) (h : HistPart) (s : State) :
    (retireOutcome a g dv h s).hist = some (if a then ({ h with dvec := dv } : HistPart).bump (outcomeSlot dv) else { h with dvec := dv }) := rfl
@[simp] theorem retireOutcome_phase (a : Bool) (g : Gen) (dv : DropVec) (h : HistPart) (s : State) :
    (retireOutcome a g dv h s).phase = s.phase := rfl
@[simp] theorem retireOutcome_commands (a : Bool) (g : Gen) (dv : DropVec) (h : HistPart) (s : State) :
    (retireOutcome a g dv h s).commands = s.commands := rfl

/-! ### clearCounters -/

@[simp] theorem clearCounters_gen (h : HistPart) (s : State) : (clearCounters h s).gen = s.gen := rfl
@[simp] theorem clearCounters_result (h : HistPart) (s : State) : (clearCounters h s).result = s.result := rfl
@[simp] theorem clearCounters_dbit (h : HistPart) (s : State) : (clearCounters h s).dbit = s.dbit := rfl
@[simp] theorem clearCounters_ill (h : HistPart) (s : State) : (clearCounters h s).ill = s.ill := rfl
@[simp] theorem clearCounters_cause (h : HistPart) (s : State) : (clearCounters h s).cause = s.cause := rfl
@[simp] theorem clearCounters_illcmd (h : HistPart) (s : State) : (clearCounters h s).illcmd = s.illcmd := rfl
@[simp] theorem clearCounters_hist (h : HistPart) (s : State) : (clearCounters h s).hist = some h.clear := rfl
@[simp] theorem clearCounters_phase (h : HistPart) (s : State) : (clearCounters h s).phase = s.phase := rfl
@[simp] theorem clearCounters_commands (h : HistPart) (s : State) : (clearCounters h s).commands = s.commands := rfl

/-! ### readCounter -/

@[simp] theorem readCounter_gen (h : HistPart) (k : Fin 6) (s : State) : (readCounter h k s).gen = s.gen := rfl
@[simp] theorem readCounter_result (h : HistPart) (k : Fin 6) (s : State) :
    (readCounter h k s).result = h.counters[k] := rfl
@[simp] theorem readCounter_dbit (h : HistPart) (k : Fin 6) (s : State) : (readCounter h k s).dbit = s.dbit := rfl
@[simp] theorem readCounter_ill (h : HistPart) (k : Fin 6) (s : State) : (readCounter h k s).ill = s.ill := rfl
@[simp] theorem readCounter_cause (h : HistPart) (k : Fin 6) (s : State) : (readCounter h k s).cause = s.cause := rfl
@[simp] theorem readCounter_illcmd (h : HistPart) (k : Fin 6) (s : State) :
    (readCounter h k s).illcmd = s.illcmd := rfl
@[simp] theorem readCounter_hist (h : HistPart) (k : Fin 6) (s : State) : (readCounter h k s).hist = s.hist := rfl
@[simp] theorem readCounter_phase (h : HistPart) (k : Fin 6) (s : State) : (readCounter h k s).phase = s.phase := rfl
@[simp] theorem readCounter_commands (h : HistPart) (k : Fin 6) (s : State) :
    (readCounter h k s).commands = s.commands := rfl

/-! ### presentWord -/

@[simp] theorem presentWord_gen (w : CmdWord) (s : State) : (presentWord w s).gen = s.gen := rfl
@[simp] theorem presentWord_result (w : CmdWord) (s : State) : (presentWord w s).result = s.result := rfl
@[simp] theorem presentWord_dbit (w : CmdWord) (s : State) : (presentWord w s).dbit = s.dbit := rfl
@[simp] theorem presentWord_ill (w : CmdWord) (s : State) : (presentWord w s).ill = s.ill := rfl
@[simp] theorem presentWord_cause (w : CmdWord) (s : State) : (presentWord w s).cause = s.cause := rfl
@[simp] theorem presentWord_illcmd (w : CmdWord) (s : State) : (presentWord w s).illcmd = s.illcmd := rfl
@[simp] theorem presentWord_hist (w : CmdWord) (s : State) : (presentWord w s).hist = s.hist := rfl
@[simp] theorem presentWord_phase (w : CmdWord) (s : State) : (presentWord w s).phase = .idle := rfl
@[simp] theorem presentWord_commands (w : CmdWord) (s : State) : (presentWord w s).commands = w :: s.commands := rfl

/-! ### keepBusy -/

@[simp] theorem keepBusy_gen (job : Job) (work : Gen) (s : State) : (keepBusy job work s).gen = s.gen := rfl
@[simp] theorem keepBusy_result (job : Job) (work : Gen) (s : State) : (keepBusy job work s).result = s.result := rfl
@[simp] theorem keepBusy_dbit (job : Job) (work : Gen) (s : State) : (keepBusy job work s).dbit = s.dbit := rfl
@[simp] theorem keepBusy_ill (job : Job) (work : Gen) (s : State) : (keepBusy job work s).ill = s.ill := rfl
@[simp] theorem keepBusy_cause (job : Job) (work : Gen) (s : State) : (keepBusy job work s).cause = s.cause := rfl
@[simp] theorem keepBusy_illcmd (job : Job) (work : Gen) (s : State) : (keepBusy job work s).illcmd = s.illcmd := rfl
@[simp] theorem keepBusy_hist (job : Job) (work : Gen) (s : State) : (keepBusy job work s).hist = s.hist := rfl
@[simp] theorem keepBusy_phase (job : Job) (work : Gen) (s : State) :
    (keepBusy job work s).phase = .executing job work := rfl
@[simp] theorem keepBusy_commands (job : Job) (work : Gen) (s : State) :
    (keepBusy job work s).commands = s.commands := rfl

/-! ### toIdle -/

@[simp] theorem toIdle_gen (s : State) : (toIdle s).gen = s.gen := rfl
@[simp] theorem toIdle_result (s : State) : (toIdle s).result = s.result := rfl
@[simp] theorem toIdle_dbit (s : State) : (toIdle s).dbit = s.dbit := rfl
@[simp] theorem toIdle_ill (s : State) : (toIdle s).ill = s.ill := rfl
@[simp] theorem toIdle_cause (s : State) : (toIdle s).cause = s.cause := rfl
@[simp] theorem toIdle_illcmd (s : State) : (toIdle s).illcmd = s.illcmd := rfl
@[simp] theorem toIdle_hist (s : State) : (toIdle s).hist = s.hist := rfl
@[simp] theorem toIdle_phase (s : State) : (toIdle s).phase = .idle := rfl
@[simp] theorem toIdle_commands (s : State) : (toIdle s).commands = s.commands := rfl

/-- Setting the phase a state has changes nothing. -/
theorem State.with_phase_self {s : State} {p : Phase} (h : s.phase = p) : { s with phase := p } = s := by
  subst h; rfl

/-! ### HistPart -/

@[simp] theorem HistPart.bump_dvec (h : HistPart) (k : Fin 6) : (h.bump k).dvec = h.dvec := rfl
@[simp] theorem HistPart.clear_dvec (h : HistPart) : h.clear.dvec = h.dvec := rfl

theorem HistPart.bump_counters (h : HistPart) (k : Fin 6) (j : Nat) (hj : j < 6) :
    (h.bump k).counters[j] = if k.val = j then h.counters[j] + 1 else h.counters[j] := by
  by_cases e : k.val = j
  · subst e; simp [HistPart.bump]
  · simp [HistPart.bump, Vector.getElem_set_ne, e]

@[simp] theorem HistPart.clear_counters (h : HistPart) (j : Nat) (hj : j < 6) : h.clear.counters[j] = 0 := by
  simp [HistPart.clear]

/-! ### HISTEN is hard-wired: no operation of the unit changes it -/

@[simp] theorem histEn_raiseIllegal (c : IllegalCause) (w : CmdWord) (s : State) :
    (raiseIllegal c w s).histEn = s.histEn := rfl
@[simp] theorem histEn_loadGen (v : Gen) (s : State) : (loadGen v s).histEn = s.histEn := rfl
@[simp] theorem histEn_retireAdvance (g : Gen) (s : State) : (retireAdvance g s).histEn = s.histEn := rfl
@[simp] theorem histEn_retireDrop (g : Gen) (b : Bool) (s : State) : (retireDrop g b s).histEn = s.histEn := rfl
@[simp] theorem histEn_readCounter (h : HistPart) (k : Fin 6) (s : State) :
    (readCounter h k s).histEn = s.histEn := rfl
@[simp] theorem histEn_retireOutcome (a : Bool) (g : Gen) (dv : DropVec) (h : HistPart) (s : State) :
    (retireOutcome a g dv h s).histEn = true := rfl
@[simp] theorem histEn_clearCounters (h : HistPart) (s : State) : (clearCounters h s).histEn = true := rfl
@[simp] theorem histEn_keepBusy (job : Job) (work : Gen) (s : State) :
    (keepBusy job work s).histEn = s.histEn := rfl
@[simp] theorem histEn_toIdle (s : State) : (toIdle s).histEn = s.histEn := rfl
@[simp] theorem histEn_resetOf (b : Bool) : (State.resetOf b).histEn = b := by cases b <;> rfl
@[simp] theorem histEn_resetUnit (s : State) : (resetUnit s).histEn = s.histEn := histEn_resetOf s.histEn

theorem histEn_eq_true {s : State} : s.histEn = true ↔ ∃ h, s.hist = some h := Option.isSome_iff_exists

theorem histEn_eq_false {s : State} : s.histEn = false ↔ s.hist = none := by
  simp [State.histEn]

end Sys2Proof.Machine
end

