-- ==== Sys2Proof/Laws/Clock.lean ====
section
/-! SUPPORT. What one clock cycle of a command in flight does, said once for every job: it is the last one, and the
command retires with its whole effect; or it is not, and one cycle less is left to the same effect. -/

namespace Sys2Proof.Machine

theorem jobTicks_pos (job : Job) (work : Gen) : 1 ≤ jobTicks job work := by
  cases job with
  | advn left => exact Nat.le_max_left _ _
  | drop => exact drop_advances_pos work
  | outcome a step dv => exact protocolFrom_advances_pos step work dv

/-- What is left of a job after a cycle that does not retire it. -/
def JobGoesOn (job job' : Job) (work work' : Gen) : Prop :=
  jobTicks job work = jobTicks job' work' + 1 ∧ ∀ s : State, finishJob job' work' s = finishJob job work s

/-- A cycle of a SIM or SIMACC in flight that leaves a step to do. -/
theorem outcome_goesOn {a : Bool} {step step' : ProtocolStep} {dv dv' : DropVec} {work : Gen}
    (h : protocolFrom step ⟨work, dv, 0⟩ = (protocolFrom step' ⟨N work, dv', 0⟩).later 1) :
    JobGoesOn (.outcome a step dv) (.outcome a step' dv') work (N work) := by
  refine ⟨by simp only [jobTicks, h, ProtocolRun.later], fun s => ?_⟩
  simp only [finishJob, h, ProtocolRun.later]

theorem drop_goesOn {work : Gen} (hz : lowByte (N work) = 0) : JobGoesOn .drop .drop work (N work) := by
  refine ⟨by simp only [jobTicks, drop_unfold hz], fun s => ?_⟩
  simp only [finishJob, drop_unfold hz]

theorem advn_goesOn {left : BitVec 16} {work : Gen} (hl : ¬ left.toNat ≤ 1) :
    JobGoesOn (.advn left) (.advn (left - 1)) work (N work) := by
  have h1 : (left - 1).toNat = left.toNat - 1 := by bv_omega
  have hm : max 1 left.toNat = max 1 (left.toNat - 1) + 1 := by omega
  exact ⟨by rw [jobTicks, jobTicks, h1, hm], fun s => by rw [finishJob, finishJob, h1, hm, advances_succ]⟩

/-- One cycle of a command in flight (R240): it retires with the effect of the whole command, or nothing architected
changes and the same effect is one cycle nearer. -/
theorem tickJob_cases (job : Job) (work : Gen) (s : State) :
    (jobTicks job work = 1 ∧ tickJob job work s = finishJob job work s) ∨
    (∃ job' work', JobGoesOn job job' work work' ∧ tickJob job work s = keepBusy job' work' s) := by
  cases job with
  | advn left =>
    by_cases hl : left.toNat ≤ 1
    · have hm : max 1 left.toNat = 0 + 1 := by omega
      exact .inl ⟨by rw [jobTicks, hm], by rw [tickJob, if_pos hl, finishJob, hm]; rfl⟩
    · exact .inr ⟨_, _, advn_goesOn hl, by rw [tickJob, if_neg hl]⟩
  | drop =>
    by_cases hz : lowByte (N work) = 0
    · exact .inr ⟨_, _, drop_goesOn hz, by rw [tickJob, if_pos hz]⟩
    · exact .inl ⟨by rw [jobTicks, drop_stop hz], by rw [tickJob, if_neg hz, finishJob, drop_stop hz]; rfl⟩
  | outcome a step dv =>
    cases step with
    | pairAdvance i => exact .inr ⟨_, _, outcome_goesOn (protocolFrom_pairAdvance i work dv), rfl⟩
    | pairDrop i =>
      by_cases hz : lowByte (N work) = 0
      · exact .inr ⟨_, _, outcome_goesOn (protocolFrom_pairDrop_again i dv hz), by
          rw [tickJob, tickProtocol, if_pos hz]⟩
      · exact .inr ⟨_, _, outcome_goesOn (protocolFrom_pairDrop_stop i dv hz), by
          rw [tickJob, tickProtocol, if_neg hz]⟩
    | burn done => exact .inr ⟨_, _, outcome_goesOn (protocolFrom_burn done work dv), rfl⟩
    | lastDrop =>
      by_cases hz : lowByte (N work) = 0
      · exact .inr ⟨_, _, outcome_goesOn (protocolFrom_lastDrop_again dv hz), by
          rw [tickJob, tickProtocol, if_pos hz]⟩
      · refine .inl ⟨by rw [jobTicks, protocolFrom_lastDrop_stop dv hz], ?_⟩
        rw [tickJob, tickProtocol, if_neg hz, finishJob, protocolFrom_lastDrop_stop dv hz]
        rfl

/-- What a rising edge without reset does to a busy unit: the command port is not looked at (R52). -/
theorem clockEdge_executing {p : Pins} (hr : p.rst = false) {job : Job} {work : Gen} {s : State}
    (hp : s.phase = .executing job work) : clockEdge p s = tickJob job work s := by
  simp [clockEdge, hr, hp]

theorem clockEdge_accept {p : Pins} (hr : p.rst = false) (hv : p.cmdValid = true) {s : State}
    (hp : s.phase = .idle) : clockEdge p s = acceptWord p.cmd s := by
  simp [clockEdge, hr, hv, hp]

theorem clockEdge_wait {p : Pins} (hr : p.rst = false) (hv : p.cmdValid = false) {s : State}
    (hp : s.phase = .idle) : clockEdge p s = s := by
  simp [clockEdge, hr, hv, hp]

theorem clockEdge_reset {p : Pins} (hr : p.rst = true) (s : State) : clockEdge p s = resetUnit s := by
  simp [clockEdge, hr]

@[simp] theorem clockEdges_nil (s : State) : clockEdges [] s = s := rfl

@[simp] theorem clockEdges_cons (p : Pins) (ps : List Pins) (s : State) :
    clockEdges (p :: ps) s = clockEdges ps (clockEdge p s) := rfl

end Sys2Proof.Machine
end

