-- ==== Sys2Proof/Laws/Exec.lean ====
section
/-! SUPPORT. What accepting a word and taking a step can do, said once, for the provers to cite. -/

namespace Sys2Proof.Machine

theorem withHist_none {i : Instr} {s : State} {f : HistPart → State} (h : s.hist = none) :
    withHist i s f = raiseIllegal .reservedOpcode (encode i) s := by
  simp [withHist, h]

theorem withHist_some {i : Instr} {s : State} {f : HistPart → State} {h : HistPart} (hs : s.hist = some h) :
    withHist i s f = f h := by
  simp [withHist, hs]

theorem counterSlot_of_lt {k : CounterIndex} (h : k.toNat < 6) : counterSlot k = some ⟨k.toNat, h⟩ := by
  simp [counterSlot, h]

theorem counterSlot_of_ge {k : CounterIndex} (h : 6 ≤ k.toNat) : counterSlot k = none := by
  simp [counterSlot, Nat.not_lt.mpr h]

theorem runWord_command {s : State} {w : CmdWord} {i : Instr} (h : decode s.histEn w = .command i) :
    runWord w s = exec i s := by
  simp [runWord, h]

theorem runWord_illegal {s : State} {w : CmdWord} {c : IllegalCause} (h : decode s.histEn w = .illegal c) :
    runWord w s = .next (raiseIllegal c w s) := by
  simp [runWord, h]

/-- Every command answers a next state: "No legal command can fail" (R200). -/
theorem exec_isNext (i : Instr) (s : State) : ∃ t, exec i s = .next t := by
  cases i <;> exact ⟨_, rfl⟩

/-- What a step that answers a next state did: the idle unit waited, or accepted the head of the host's list and ran
it, or the busy unit completed the command in flight. -/
theorem step_cases {s t : State} (h : step s = .next t) :
    (s.phase = .idle ∧ s.commands = [] ∧ t = s) ∨
    (∃ w rest, s.phase = .idle ∧ s.commands = w :: rest ∧ runWord w { s with commands := rest } = .next t) ∨
    (∃ job work, s.phase = .executing job work ∧ t = finishJob job work s) := by
  cases hp : s.phase with
  | powerUp => simp [step, stepUnit, hp] at h
  | executing job work =>
    simp only [step, stepUnit, hp, Host.Outcome.next.injEq] at h
    exact .inr (.inr ⟨job, work, rfl, h.symm⟩)
  | idle =>
    cases hc : s.commands with
    | nil =>
      simp only [step, stepUnit, hp, stepIdle, nextCommand, hc, Host.Outcome.next.injEq] at h
      exact .inl ⟨rfl, rfl, h.symm⟩
    | cons w rest =>
      simp only [step, stepUnit, hp, stepIdle, nextCommand, hc] at h
      exact .inr (.inl ⟨w, rest, rfl, rfl, h⟩)

end Sys2Proof.Machine
end

