-- ==== Sys2Proof/Laws/Flags.lean ====
section
/-! SUPPORT. The fields of the STATUS word, one lemma per field, and what the output ports show in each phase. -/

namespace Sys2Proof.Machine

@[simp] theorem statusWord_busy (h : Bool) (dv : DropVec) (c : BitVec 2) (ill d b : Bool) :
    (statusWord h dv c ill d b)[0] = b := by
  revert h dv c ill d b; decide

@[simp] theorem statusWord_dbit (h : Bool) (dv : DropVec) (c : BitVec 2) (ill d b : Bool) :
    (statusWord h dv c ill d b)[1] = d := by
  revert h dv c ill d b; decide

@[simp] theorem statusWord_ill (h : Bool) (dv : DropVec) (c : BitVec 2) (ill d b : Bool) :
    (statusWord h dv c ill d b)[2] = ill := by
  revert h dv c ill d b; decide

@[simp] theorem statusWord_cause (h : Bool) (dv : DropVec) (c : BitVec 2) (ill d b : Bool) :
    (statusWord h dv c ill d b).extractLsb' 3 2 = c := by
  revert h dv c ill d b; decide

@[simp] theorem statusWord_dvec (h : Bool) (dv : DropVec) (c : BitVec 2) (ill d b : Bool) :
    (statusWord h dv c ill d b).extractLsb' 5 5 = dv := by
  revert h dv c ill d b; decide

@[simp] theorem statusWord_histen (h : Bool) (dv : DropVec) (c : BitVec 2) (ill d b : Bool) :
    (statusWord h dv c ill d b)[10] = h := by
  revert h dv c ill d b; decide

@[simp] theorem statusWord_reserved (h : Bool) (dv : DropVec) (c : BitVec 2) (ill d b : Bool) :
    (statusWord h dv c ill d b).extractLsb' 11 21 = 0 := by
  revert h dv c ill d b; decide

/-- Whatever the phase, `status_o` is a STATUS word with HISTEN as it is. -/
theorem outputs_statusO (rst : Bool) (draw : Ports) (s : State) :
    ∃ dv c ill d b, (outputs rst draw s).statusO = statusWord s.histEn dv c ill d b := by
  cases hp : s.phase <;> simp only [outputs, hp, drawnStatus, State.status] <;> exact ⟨_, _, _, _, _, rfl⟩

theorem busy_iff_executing {s : State} : s.busy = true ↔ ∃ job work, s.phase = .executing job work := by
  cases hp : s.phase <;> simp [State.busy, hp]

theorem outputs_executing {rst : Bool} {draw : Ports} {s : State} {job : Job} {work : Gen}
    (hp : s.phase = .executing job work) :
    outputs rst draw s = { draw with cmdReady := cmdReady rst s, statusO := drawnStatus true draw.statusO s } := by
  simp only [outputs, hp]

/-- Before the first reset every port shows what is drawn, but for HISTEN and the STATUS bits that always read 0. -/
theorem outputs_powerUp {rst : Bool} {draw : Ports} {s : State} (hp : s.phase = .powerUp) :
    outputs rst draw s = { draw with statusO := drawnStatus (draw.statusO.getLsbD 0) draw.statusO s } := by
  simp only [outputs, hp]

end Sys2Proof.Machine
end

