-- ==== Sys2Proof/Laws/PerInstr.lean ====
section
/-! SUPPORT. Per-instruction families: statements about an instruction as syntax, one lemma per constructor. -/

namespace Sys2Proof

theorem packWord_toNat (op : BitVec 4) (imm : Imm) : (packWord op imm).toNat = op.toNat * 65536 + imm.toNat := by
  simp only [packWord, BitVec.toNat_append]
  rw [← Nat.shiftLeft_add_eq_or_of_lt imm.isLt, Nat.shiftLeft_eq]

theorem opcode_packWord (op : BitVec 4) (imm : Imm) : opcode (packWord op imm) = op := by
  apply BitVec.eq_of_toNat_eq
  have := op.isLt
  have := imm.isLt
  simp only [opcode, BitVec.extractLsb'_toNat, packWord_toNat, Nat.shiftRight_eq_div_pow]
  omega

theorem operand_packWord (op : BitVec 4) (imm : Imm) : operand (packWord op imm) = imm := by
  apply BitVec.eq_of_toNat_eq
  have := imm.isLt
  simp only [operand, BitVec.extractLsb'_toNat, packWord_toNat, Nat.shiftRight_zero]
  omega

/-- The word of an instruction holds its opcode in bits 19:16 and its operand in bits 15:0 (R70, R72). -/
def Laws.EncodeFields.Statement (i : Instr) : Prop := opcode (encode i) = i.op ∧ operand (encode i) = i.imm

theorem encode_fields (i : Instr) : Laws.EncodeFields.Statement i :=
  ⟨opcode_packWord i.op i.imm, operand_packWord i.op i.imm⟩

theorem Laws.EncodeFields.nop : Laws.EncodeFields.Statement .nop := encode_fields _
theorem Laws.EncodeFields.seed (v : Imm) : Laws.EncodeFields.Statement (.seed v) := encode_fields _
theorem Laws.EncodeFields.adv : Laws.EncodeFields.Statement .adv := encode_fields _
theorem Laws.EncodeFields.drop : Laws.EncodeFields.Statement .drop := encode_fields _
theorem Laws.EncodeFields.advn (n : Imm) : Laws.EncodeFields.Statement (.advn n) := encode_fields _
theorem Laws.EncodeFields.sim : Laws.EncodeFields.Statement .sim := encode_fields _
theorem Laws.EncodeFields.simacc : Laws.EncodeFields.Statement .simacc := encode_fields _
theorem Laws.EncodeFields.hclr : Laws.EncodeFields.Statement .hclr := encode_fields _
theorem Laws.EncodeFields.hread (k : CounterIndex) : Laws.EncodeFields.Statement (.hread k) := encode_fields _

end Sys2Proof
end

