-- ==== Sys2Proof/Tests/Slice0.lean ====
section
/-! SUPPORT. The model's own tests. Expected values are those of 95_test_vectors.md and of the rules' examples, never the
model's own answers. The second part holds, for each statement with hypotheses, a witness that meets them. -/

namespace Sys2Proof.Tests

open Sys2Proof Sys2Proof.Machine

/-- The reset unit with another STATE. -/
def unitAt (g : Gen) : State := { State.reset with gen := g }

/-- The reset unit with the host's commands. -/
def unitWith (ws : List CmdWord) : State := { State.reset with commands := ws }

/-- The unit without option HIST, with the host's commands. -/
def coreWith (ws : List CmdWord) : State := { State.resetOf false with commands := ws }

/-- The next state, where there is one. -/
def after (o : Host.Outcome State Fault Refusal) : Option State :=
  match o with
  | .next t => some t
  | .fault _ => none
  | .refused _ => none

/-- Pins without reset and without a command. -/
def quiet : Pins := { rst := false, cmdValid := false, cmd := 0 }

/-- Pins that present a command. -/
def present (w : CmdWord) : Pins := { rst := false, cmdValid := true, cmd := w }

/-- Pins with reset. -/
def resetPins : Pins := { rst := true, cmdValid := true, cmd := 0x20000 }

/-! ### WellFormed: an ill-formed term for its one check (R71) -/

theorem test_hread_6_ill_formed : (Instr.hread 6).wellFormed = false := by decide
theorem test_hread_7_ill_formed : (Instr.hread 7).wellFormed = false := by decide
theorem test_hread_5_well_formed : (Instr.hread 5).wellFormed = true := by decide

/-! ### Decode: words written out from the encodings of R72, OP then IMM -/

theorem test_decode_nop : decode true 0b00000000000000000000 = .command .nop := by decide
theorem test_decode_seed : decode true 0b00010000111111010011 = .command (.seed 0x0FD3) := by decide
theorem test_decode_adv : decode true 0b00100000000000000000 = .command .adv := by decide
theorem test_decode_drop : decode true 0b00110000000000000000 = .command .drop := by decide
theorem test_decode_advn : decode true 0b01000000000010110000 = .command (.advn 176) := by decide
theorem test_decode_sim : decode true 0b10000000000000000000 = .command .sim := by decide
theorem test_decode_simacc : decode true 0b10010000000000000000 = .command .simacc := by decide
theorem test_decode_hclr : decode true 0b10100000000000000000 = .command .hclr := by decide
theorem test_decode_hread : decode true 0b10110000000000000101 = .command (.hread 5) := by decide

/-- The illegal words of 95_test_vectors.md §6. -/
theorem test_decode_illegal_words :
    ([0x00001, 0x20001, 0xA0001, 0xB0008] : List CmdWord).map (decode true)
        = List.replicate 4 (.illegal .reservedOperandBits) ∧
      ([0x50000, 0x7ABCD, 0xC0000, 0xFFFFF] : List CmdWord).map (decode true)
        = List.replicate 4 (.illegal .reservedOpcode) ∧
      ([0x80000, 0xB0000, 0x50000] : List CmdWord).map (decode false)
        = List.replicate 3 (.illegal .reservedOpcode) ∧
      ([0xB0006, 0xB0007] : List CmdWord).map (decode true) = List.replicate 2 (.illegal .indexOutOfRange) := by
  decide

theorem test_decode_edges : decode false 0x1FFFF = .command (.seed 0xFFFF) ∧
    decode false 0x4FFFF = .command (.advn 65535) := by decide

theorem test_table_word : decodeTableWord 24 0xB0005 = some (.hread 5) ∧ decodeTableWord 24 0xB0006 = none ∧
    decodeTableWord 24 0x100000 = none := by decide

/-! ### The datapath: 95_test_vectors.md §2 -/

theorem test_N_vectors :
    ([0x0000, 0x0001, 0x0033, 0x0063, 0x00FF, 0x0100, 0x0111, 0x32FF, 0x3300, 0x3333, 0x3363, 0x33FF] : List Gen).map N
      = [0x0111, 0x0116, 0x0210, 0x0300, 0x060C, 0x0611, 0x0666, 0x000C, 0x0012, 0x0111, 0x0201, 0x050D] := by decide

theorem test_N_vectors_upper :
    ([0x7FFF, 0x8000, 0xFF00, 0xFFFF, 0xABCD, 0x1234, 0x0FD3, 0x6D67, 0x0054, 0x01FF] : List Gen).map N
      = [0x810C, 0x8111, 0xFC11, 0x010D, 0x5C12, 0x5C15, 0x5030, 0x2414, 0x02B5, 0x0B0C] := by decide

/-- Stage values of R109 and 95_test_vectors.md §2. -/
theorem test_N_stages : r1 0x00FF = 0x4FB ∧ combined 0x32FF = 0x0FFFB ∧ combined 0x3300 = 0x10000 ∧
    combined 0x33FF = 0x104FB ∧ r2 0x7FFF = 0x7B ∧ combined 0x3333 = 0x100FF := by decide

theorem test_nWires : ([0x3300, 0x33FF, 0xABCD] : List Gen).map nWires = [0x0012, 0x050D, 0x5C12] := by decide

/-! ### The commands: 95_test_vectors.md §3 to §5 -/

theorem test_nop_changes_nothing : after (exec .nop (unitAt 0x1234)) = some (unitAt 0x1234) := by decide

theorem test_seed_does_not_advance :
    (after (exec (.seed 0xBEEF) (unitAt 0x1234))).map (fun t => (t.gen, t.result)) = some (0xBEEF, 0) := by decide

theorem test_adv_carry :
    (after (exec .adv (unitAt 0x3300))).map (fun t => (t.gen, t.result)) = some (0x0012, 0x00000012) := by decide

theorem test_advn_three :
    (after (exec (.advn 3) (unitAt 0x1234))).map (fun t => (t.gen, t.result)) = some (0x0473, 0x00000473) := by decide

theorem test_advn_zero :
    (after (exec (.advn 0) (unitAt 0x1234))).map (fun t => (t.gen, t.result)) = some (0x1234, 0x00001234) := by decide

theorem test_drop_hit : (after (exec .drop (unitAt 0x0030))).map (fun t => (t.gen, t.dbit, t.result))
    = some (0x0201, true, 1) := by decide

theorem test_drop_vectors :
    ([0x0000, 0x3330, 0x3363, 0x0062, 0x0063, 0x3396, 0x02FF] : List Gen).map
        (fun s => ((drop s).advances, (drop s).state, (drop s).bit))
      = [(1, 0x0111, false), (1, 0x0102, false), (1, 0x0201, true), (1, 0x02FB, false), (2, 0x1011, false),
         (2, 0x1011, false), (1, 0x100C, false)] := by decide

theorem test_sim_outcome_two :
    (after (exec .sim (unitAt 0x0FD3))).map (fun t => (t.gen, t.result, t.dvec)) = some (0xB401, 2, 0b10001) := by
  decide +kernel

theorem test_sim_advance_counts :
    ((outcome 0x0208).state, (outcome 0x0208).advances, (outcome 0x0FD3).advances) = (0x6111, 187, 185) := by
  decide +kernel

theorem test_simacc_counts :
    (after (exec .simacc (unitAt 0x6D67))).map (fun t => (t.gen, t.dvec, t.observe.hist))
      = some (0x9901, 0b10100, some #v[0, 0, 1, 0, 0, 0]) := by decide +kernel

/-- R162: a counter at its largest value wraps to 0; seed 0x0000 has outcome 0. -/
theorem test_simacc_wraps :
    (after (exec .simacc { State.reset with hist := some { dvec := 0, counters := #v[0xFFFFFFFF, 1, 2, 3, 4, 5] } })).map
      (fun t => (t.observe.hist, t.ill)) = some (some #v[0, 1, 2, 3, 4, 5], false) := by decide +kernel

/-- Three counters of R164's example. -/
def threeCounters : State :=
  { State.reset with hist := some { dvec := 0b00101, counters := #v[1, 1, 2, 0, 0, 0] } }

theorem test_hclr : (after (exec .hclr threeCounters)).map (fun t => (t.observe.hist, t.dvec))
    = some (some #v[0, 0, 0, 0, 0, 0], 0b00101) := by decide

theorem test_hread : (after (exec (.hread 2) threeCounters)).map (fun t => (t.result, t.gen)) = some (2, 0) := by decide

/-! ### Steps, STATUS and the illegal command: programs P4 and P5 of 95_test_vectors.md §8 -/

theorem test_reset_status : State.reset.status = 0x00000400 ∧ (State.resetOf false).status = 0x00000000 := by decide

theorem test_step_illegal_records : (after (step (unitWith [0x50000]))).map (fun t => (t.status, t.illcmd, t.commands))
    = some (0x0000040C, 0x50000, []) := by decide

theorem test_second_illegal_records_nothing :
    (after (step { unitWith [0x20001] with ill := true, cause := 1, illcmd := 0x50000 })).map
      (fun t => (t.status, t.illcmd)) = some (0x0000040C, 0x50000) := by decide

theorem test_step_without_hist : (after (step (coreWith [0x80000]))).map (fun t => (t.status, t.illcmd))
    = some (0x0000000C, 0x80000) := by decide

/-- STATUS at the end of P2: HISTEN, DVEC = 0b10001, DBIT. -/
theorem test_status_p2 :
    ({ State.reset with dbit := true, hist := some { dvec := 0b10001, counters := #v[0, 0, 0, 0, 0, 0] } } : State).status
      = 0x00000622 := by decide

theorem test_step_runs_placed_word : (after (step (State.reset.withFetchWord 24 0x20000))).map (fun t => (t.gen, t.result))
    = some (0x0111, 0x00000111) := by decide

theorem test_step_idle_waits : after (step State.reset) = some State.reset := by decide

/-! ### The clock: the latencies of 95_test_vectors.md §4 -/

theorem test_clock_two_cycle_drop :
    (clockEdges [present 0x30000] (unitAt 0x0063)).busy = true ∧
    (clockEdges [present 0x30000] (unitAt 0x0063)).gen = 0x0063 ∧
    (clockEdges [present 0x30000, quiet] (unitAt 0x0063)).busy = false ∧
    (clockEdges [present 0x30000, quiet] (unitAt 0x0063)).gen = 0x1011 := by decide

theorem test_clock_reset_abandons :
    clockEdges [present 0x40003, quiet, resetPins] (unitAt 0x1234) = State.reset := by decide

theorem test_clock_ignores_command_while_busy :
    (clockEdges [present 0x40003, present 0x10000, quiet] (unitAt 0x1234)).gen = 0x0473 := by decide

theorem test_latencies : (wordLatency true 0x400B0 0, wordLatency true 0x40000 0, wordLatency true 0x50000 0,
    wordLatency true 0x30000 0x0063) = (176, 1, 1, 2) := by decide

/-- All wires drawn high. -/
def highDraw : Ports :=
  { cmdReady := true, stateO := 0xFFFF, resultO := 0xFFFFFFFF, statusO := 0xFFFFFFFF, illcmdO := 0xFFFFF }

/-- STATUS[31:11] always read 0 (R27): while a DROP is in flight, and before the first reset; DVEC too without HIST. -/
theorem test_reserved_status_bits_read_zero :
    (outputs false highDraw (clockEdge (present 0x30000) (unitAt 0x0063))).statusO = 0x000007FF ∧
    (outputs false highDraw (powerLoss State.reset)).statusO = 0x000007FF ∧
    (outputs false highDraw (clockEdge (present 0x40002) (coreWith []))).statusO = 0x0000001F := by decide

/-! ### The assembler: R77, R78 -/

theorem test_asm_lines :
    assembleLine ['a', 'd', 'v', 'n', ' ', '0', 'x', 'b', '0', ' ', ';', 'x'] = some [0x400B0] ∧
    assembleLine ['S', 'E', 'E', 'D', 'S', 'I', 'M', '\t', '4', '0', '5', '1'] = some [0x10FD3, 0x80000] ∧
    assembleLine ['R', 'd', 's', 't'] = some [0x40000] := by decide

theorem test_asm_errors :
    assembleLine ['H', 'R', 'E', 'A', 'D', ' ', '6'] = none ∧ assembleLine ['S', 'E', 'E', 'D'] = none ∧
    assembleLine ['S', 'E', 'E', 'D', ' ', '6', '5', '5', '3', '6'] = none ∧
    assembleLine ['A', 'D', 'V', ' ', '1'] = none := by decide

/-! ### Witnesses: for each statement with hypotheses, operands and states that meet them -/

/-- A unit with a recorded error and nonzero registers. -/
def busyRegisters : State :=
  { gen := 0x1234, result := 7, dbit := true, ill := true, cause := 1, illcmd := 0x50000,
    hist := some { dvec := 0b10001, counters := #v[1, 2, 3, 4, 5, 6] }, phase := .idle, commands := [] }

/-- A unit in the middle of a DROP whose first advance gave a zero low byte. -/
def inDrop : State := { unitAt 0x0063 with phase := .executing .drop 0x0300 }

theorem witness_decode_of_encode : (Instr.hread 5).wellFormed = true ∧ (Instr.hread 5).available true = true ∧
    (Instr.seed 0xFFFF).available false = true := by decide

theorem witness_decoded_word : decode true 0xB0005 = .command (.hread 5) ∧
    decode false 0x4FFFF = .command (.advn 0xFFFF) := by decide

theorem witness_assembled : assembleLine ['H', 'R', 'E', 'A', 'D', ' ', '5'] = some [0xB0005] := by decide

theorem witness_three_preimages : N 0x0000 = N 0x3333 ∧ N 0x3333 = N 0x3333 := by decide

theorem witness_drop_two_advances : (drop 0x0063).advances = 2 ∧ lowByte (N 0x0063) = 0 ∧ lowByte (0x0300 : Gen) = 0 := by
  decide

theorem witness_drop_runs : DropRuns (unitAt 0x0030).gen 0x0201 true 1 :=
  .stop 0x0030 (by decide)

theorem witness_drop_runs_again : DropRuns (unitAt 0x0063).gen 0x1011 false 2 :=
  .again 0x0063 0x1011 false 1 (by decide) (.stop 0x0300 (by decide))

theorem witness_none_form_words : opcode 0x00001 = 0x0 ∧ operand 0x00001 ≠ 0 ∧ opcode 0x2FFFF = 0x2 ∧
    operand 0x2FFFF ≠ 0 ∧ opcode 0x38000 = 0x3 ∧ operand 0x38000 ≠ 0 := by decide

theorem witness_imm16_words : opcode 0x1FFFF = 0x1 ∧ opcode 0x40000 = 0x4 := by decide

theorem witness_hist_words : opcode 0x80001 = 0x8 ∧ operand 0x80001 ≠ 0 ∧ opcode 0x90001 = 0x9 ∧
    operand 0x90001 ≠ 0 ∧ opcode 0xAFFFF = 0xA ∧ operand 0xAFFFF ≠ 0 := by decide

theorem witness_hread_words : opcode 0xB0008 = 0xB ∧ indexReserved (operand 0xB0008) ≠ 0 ∧ opcode 0xB0006 = 0xB ∧
    indexReserved (operand 0xB0006) = 0 ∧ 6 ≤ (indexField (operand 0xB0006)).toNat := by decide

theorem witness_hist_present : State.reset.hist = some HistPart.reset ∧ State.reset.histEn = true ∧
    (5 : CounterIndex).toNat < 6 ∧ 6 ≤ (6 : CounterIndex).toNat := by decide

theorem witness_hist_absent : Instr.sim.needsHist = true ∧ (Instr.hread 0).needsHist = true ∧
    (State.resetOf false).hist = none ∧ (State.resetOf false).histEn = false := by decide

theorem witness_advn_repeated : 1 ≤ (1 : Imm).toNat := by decide

theorem witness_frame :
    exec .nop busyRegisters = .next busyRegisters ∧
    (∃ t, exec .hclr busyRegisters = .next t) ∧ (∃ t, exec (.hread 5) busyRegisters = .next t) ∧
    (∃ t, exec (.seed 0xFFFF) busyRegisters = .next t) ∧ (∃ t, exec .simacc busyRegisters = .next t) ∧
    (Instr.hread 5).wellFormed = true ∧ (Instr.hread 5).available busyRegisters.histEn = true :=
  ⟨rfl, ⟨_, rfl⟩, ⟨_, rfl⟩, ⟨_, rfl⟩, ⟨_, rfl⟩, by decide, by decide⟩

theorem witness_reads_only_state :
    (unitAt 0x1234).gen = busyRegisters.gen ∧ (unitAt 0x1234).histEn = busyRegisters.histEn ∧
    Instr.sim.available (unitAt 0x1234).histEn = true ∧
    (∃ t, exec .sim (unitAt 0x1234) = .next t) ∧ (∃ t, exec .sim busyRegisters = .next t) ∧
    Instr.drop.available (unitAt 0x1234).histEn = true ∧
    (∃ t, exec .drop (unitAt 0x1234) = .next t) ∧ ∃ t, exec .drop busyRegisters = .next t :=
  ⟨rfl, rfl, rfl, ⟨_, rfl⟩, ⟨_, rfl⟩, rfl, ⟨_, rfl⟩, ⟨_, rfl⟩⟩

theorem witness_hread_frame : ∃ t, exec (.hread 5) busyRegisters = .next t := ⟨_, rfl⟩

theorem witness_illegal_step : (unitWith [0x50000, 0x20000]).phase = .idle ∧
    (unitWith [0x50000, 0x20000]).commands = 0x50000 :: [0x20000] ∧
    decode (unitWith [0x50000, 0x20000]).histEn 0x50000 = .illegal .reservedOpcode ∧
    (present 0x50000).rst = false ∧ (present 0x50000).cmdValid = true := by decide

theorem witness_sticky : busyRegisters.ill = true ∧ step busyRegisters = .next busyRegisters ∧
    (present 0x20000).rst = false ∧ decode busyRegisters.histEn 0xB0006 = .illegal .indexOutOfRange ∧
    resetPins.rst = true := ⟨rfl, rfl, rfl, by decide, rfl⟩

theorem witness_step_command : (unitWith [0x20000, 0x30000]).phase = .idle ∧
    (unitWith [0x20000, 0x30000]).commands = 0x20000 :: [0x30000] ∧
    decode (unitWith [0x20000, 0x30000]).histEn 0x20000 = .command .adv ∧
    ∃ t, step (unitWith [0x20000, 0x30000]) = .next t := ⟨rfl, rfl, by decide, ⟨_, rfl⟩⟩

theorem witness_placed_word : 0xB0005 < 2 ^ 20 ∧ decode busyRegisters.histEn (BitVec.ofNat 20 0xB0005) = .command (.hread 5) := by
  decide

theorem witness_idle_and_unreset : State.reset.phase = .idle ∧ State.reset.commands = [] ∧ quiet.rst = false ∧
    quiet.cmdValid = false ∧ (powerLoss State.reset).phase = .powerUp ∧
    step (powerLoss State.reset) = .fault .notReset := ⟨rfl, rfl, rfl, rfl, rfl, rfl⟩

theorem witness_reset : resetPins.rst = true ∧ State.reset.histEn = true ∧ (State.resetOf false).histEn = false ∧
    quiet.rst = false ∧ quiet.cmdValid = false ∧ (present 0x20000).cmdValid = true := by decide

theorem reset_inv : State.reset.Inv := ⟨⟨rfl, rfl⟩, trivial⟩

theorem inDrop_inv : inDrop.Inv := ⟨⟨rfl, rfl⟩, rfl⟩

theorem busyRegisters_inv : busyRegisters.Inv := ⟨⟨.reservedOpcode, by decide, rfl⟩, trivial⟩

theorem witness_step_keeps_inv : busyRegisters.Inv ∧ inDrop.Inv ∧ (∃ t, step busyRegisters = .next t) ∧
    ∃ t, step inDrop = .next t := ⟨busyRegisters_inv, inDrop_inv, ⟨_, rfl⟩, ⟨_, rfl⟩⟩

theorem witness_histen_step : ∃ t, step (coreWith [0x20000]) = .next t := ⟨_, rfl⟩

theorem witness_outputs : State.reset.phase = .idle ∧ inDrop.busy = true ∧ inDrop.histEn = true ∧
    (State.resetOf false).histEn = false := by decide

theorem witness_acceptance : (unitAt 0x0063).phase = .idle ∧ (present 0x30000).rst = false ∧
    (present 0x30000).cmdValid = true ∧ 1 < wordLatency (unitAt 0x0063).histEn 0x30000 (unitAt 0x0063).gen ∧
    (powerLoss State.reset).phase = .powerUp := by decide

theorem witness_busy_keeps :
    ({ unitAt 0x1234 with phase := .executing (.advn 2) 0x1234 } : State).busy = true ∧ quiet.rst = false ∧
    (clockEdge quiet { unitAt 0x1234 with phase := .executing (.advn 2) 0x1234 }).busy = true := by decide

theorem witness_latency : decode true 0x50000 = .illegal .reservedOpcode ∧ decode true 0x80000 = .command .sim := by
  decide

theorem witness_refinement : (unitAt 0x0063).phase = .idle ∧
    [quiet].length + 1 = wordLatency (unitAt 0x0063).histEn 0x30000 (unitAt 0x0063).gen ∧
    (∀ p ∈ [quiet], p.rst = false) ∧ 1 < [present 0x30000, quiet].length := by decide

theorem witness_busy_step : inDrop.phase = .executing .drop 0x0300 ∧ [quiet].length = jobTicks .drop 0x0300 ∧
    (∀ p ∈ [quiet], p.rst = false) ∧ 0 < [quiet].length := by decide

end Sys2Proof.Tests
end

section
/-! PROOFS. The obligations of 30_encoding.md settled here: the example words of R79 and the pseudo-instructions of R78.
Before them, the laws of running commands one after another and of what SEED, ADVN, SIM and SIMACC answer. -/

namespace Sys2Proof.Machine

/-! ### Commands one after another -/

@[simp] theorem execAll_nil (s : State) : execAll [] s = .next s := rfl

/-- A command that answers a next state hands it to the commands after it. -/
theorem execAll_cons {i : Instr} {s t : State} (h : exec i s = .next t) (is : List Instr) :
    execAll (i :: is) s = execAll is t := by
  simp only [execAll, h]

theorem execAll_singleton {i : Instr} {s t : State} (h : exec i s = .next t) : execAll [i] s = .next t := by
  rw [execAll_cons h, execAll_nil]

/-! ### What the commands of the pseudo-instructions answer -/

/-- The ticks of R117 as Mathlib's iterate. -/
theorem advances_eq_iterate (n : Nat) (g : Gen) : advances n g = N^[n] g := by
  induction n generalizing g with
  | zero => rfl
  | succ n ih => rw [advances_succ, ih, Function.iterate_succ_apply]

theorem exec_seed (v : Imm) (s : State) : exec (.seed v) s = .next (loadGen v s) := rfl

theorem exec_advn (n : Imm) (s : State) : exec (.advn n) s = .next (retireAdvance (N^[n.toNat] s.gen) s) := by
  rw [← advances_eq_iterate]; rfl

theorem exec_sim {s : State} {h : HistPart} (hs : s.hist = some h) :
    exec .sim s = .next (retireOutcome false (outcome s.gen).state (outcome s.gen).dv h s) := by
  simp only [exec, execSim, withHist_some hs]

theorem exec_simacc {s : State} {h : HistPart} (hs : s.hist = some h) :
    exec .simacc s = .next (retireOutcome true (outcome s.gen).state (outcome s.gen).dv h s) := by
  simp only [exec, execSimacc, withHist_some hs]

/-! ### The counters -/

theorem counter_of_hist {s : State} {h : HistPart} (hs : s.hist = some h) (k : Fin 6) :
    s.counter k = some h.counters[k] := by
  simp only [State.counter, hs]

/-- SIM writes no counter (R158). -/
theorem counter_retireOutcome_false (g : Gen) (dv : DropVec) (h : HistPart) (s : State) (k : Fin 6) :
    (retireOutcome false g dv h s).counter k = some h.counters[k] := rfl

/-- SIMACC counts the outcome and writes no other counter (R161). -/
theorem counter_retireOutcome_true (g : Gen) (dv : DropVec) (h : HistPart) (s : State) (k : Fin 6) :
    (retireOutcome true g dv h s).counter k =
      some (if k.val = (onesCount dv).toNat then h.counters[k] + 1 else h.counters[k]) := by
  rw [counter_of_hist (retireOutcome_hist true g dv h s), if_pos rfl]
  simp only [Fin.getElem_fin, HistPart.bump_counters, outcomeSlot, eq_comm]

/-! ### The pseudo-instructions (R78) -/

theorem execAll_rdst (s : State) :
    execAll Pseudo.rdst.expand s = .next { s with result := s.gen.setWidth 32 } :=
  execAll_singleton (exec_advn 0 s)

theorem execAll_burn (s : State) :
    execAll Pseudo.burn.expand s =
      .next { s with gen := N^[176] s.gen, result := (N^[176] s.gen).setWidth 32 } :=
  execAll_singleton (exec_advn 176 s)

/-- SEEDSIM v runs the protocol from v: SEED leaves option HIST as it is, so SIM finds it. -/
theorem execAll_seedSim (v : Imm) {s : State} {h : HistPart} (hs : s.hist = some h) :
    execAll (Pseudo.seedSim v).expand s =
      .next (retireOutcome false (outcome v).state (outcome v).dv h (loadGen v s)) := by
  rw [Pseudo.expand, execAll_cons (exec_seed v s)]
  exact execAll_singleton (exec_sim hs)

theorem execAll_seedAcc (v : Imm) {s : State} {h : HistPart} (hs : s.hist = some h) :
    execAll (Pseudo.seedAcc v).expand s =
      .next (retireOutcome true (outcome v).state (outcome v).dv h (loadGen v s)) := by
  rw [Pseudo.expand, execAll_cons (exec_seed v s)]
  exact execAll_singleton (exec_simacc hs)

/-- Settles O34: each expansion is run as a whole by the lemma of its pseudo-instruction, and the registers it leaves
are those of the last command's retirement. -/
theorem pseudoInstructionsHaveTheirEffect : Obligations.PseudoInstructionsHaveTheirEffect := by
  unfold Obligations.PseudoInstructionsHaveTheirEffect
  refine ⟨⟨rfl, execAll_rdst⟩, ⟨rfl, execAll_burn⟩, fun v => ⟨rfl, fun s hen => ?_⟩,
    fun v => ⟨rfl, fun s h hs => ?_⟩⟩
  · obtain ⟨h, hs⟩ := histEn_eq_true.mp hen
    exact ⟨_, execAll_seedSim v hs, rfl, fun k =>
      (counter_retireOutcome_false _ _ h _ k).trans (counter_of_hist hs k).symm⟩
  · exact ⟨_, execAll_seedAcc v hs, rfl, counter_retireOutcome_true _ _ h _⟩

/-! ### The example words (R79) -/

/-- Settles O1: every conjunct is about one fixed word, so packing it or decoding it is a closed computation. -/
theorem exampleWordsEncodeAndDecode : Obligations.ExampleWordsEncodeAndDecode := by
  unfold Obligations.ExampleWordsEncodeAndDecode
  decide

end Sys2Proof.Machine
end

section
/-! PROOFS. The obligations of 40_advance.md settled here: the datapath N (R101 to R106) and the commands NOP, SEED, ADV
and ADVN (R110 to R117). Before them, the datapath's signals as arithmetic on the two bytes, the states that carry and
their counts, and the decoder on the opcodes of the four commands. -/

namespace Sys2Proof.Machine

/-! ### The signals of the datapath -/

theorem lowByte_le (s : Gen) : (lowByte s).toNat ≤ 0xFF := Nat.le_of_lt_succ (lowByte s).isLt

theorem highByte_le (s : Gen) : (highByte s).toNat ≤ 0xFF := Nat.le_of_lt_succ (highByte s).isLt

theorem r1_le (s : Gen) : r1 s ≤ 0x4FB := Nat.mul_le_mul_right byteMultiplier (lowByte_le s)

theorem p2_le (s : Gen) : p2 s ≤ 0x4FB := Nat.mul_le_mul_right byteMultiplier (highByte_le s)

theorem r2_le (s : Gen) : r2 s ≤ 0xFF := Nat.le_of_lt_succ (Nat.mod_lt _ (by decide))

theorem r1_eq_lowByte (s : Gen) : r1 s = (lowByte s).toNat * 5 := rfl

theorem r2_eq_highByte (s : Gen) : r2 s = (highByte s).toNat * 5 % 256 := rfl

theorem sh_eq (s : Gen) : sh s = r2 s * 256 := rfl

theorem combined_eq_products (s : Gen) : combined s = r1 s + sh s + 0x100 := rfl

theorem foldSum_eq (s : Gen) : foldSum s = foldCarry s + combined s + 0x11 := rfl

/-- Settles O8: the bounds go down the datapath, each signal's from those of the signals it is made of. -/
theorem datapathSignalsStayInRange : Obligations.DatapathSignalsStayInRange := by
  unfold Obligations.DatapathSignalsStayInRange
  intro s
  have hr1 := r1_le s
  have hp2 := p2_le s
  have hr2 := r2_le s
  obtain ⟨hsh, hshLow⟩ : sh s ≤ 0xFF00 ∧ sh s % 2 ^ 8 = 0 := by rw [sh_eq]; omega
  obtain ⟨hcombinedGe, hcombinedLe⟩ : 0x100 ≤ combined s ∧ combined s ≤ 0x104FB := by
    rw [combined_eq_products]; omega
  have hcarry := foldCarry_le_one s
  obtain ⟨hsumGe, hsumLe⟩ : 0x111 ≤ foldSum s ∧ foldSum s ≤ 0x1050D := by rw [foldSum_eq]; omega
  exact ⟨lowByte_le s, highByte_le s, ⟨hr1, by omega⟩, ⟨hp2, by omega⟩, ⟨hr2, by omega⟩,
    ⟨hsh, by omega, hshLow⟩, ⟨hcombinedGe, hcombinedLe, by omega⟩, hcarry, hsumGe, hsumLe, by omega⟩

/-- Settles O7: masking is reduction modulo a power of two and shifting is division by one, so each line of the source
is the signal of the same name. -/
theorem datapathIsTheSourceFormula : Obligations.DatapathIsTheSourceFormula := by
  unfold Obligations.DatapathIsTheSourceFormula
  intro s low high r1' r2' combined'
  have hlow : low = (lowByte s).toNat := by
    rw [lowByte_toNat]; exact Nat.and_two_pow_sub_one_eq_mod s.toNat 8
  have hhigh : high = (highByte s).toNat := by
    simp only [high, highByte, BitVec.extractLsb'_toNat]
    exact Nat.and_two_pow_sub_one_eq_mod _ 8
  have hr1 : r1' = r1 s := congrArg (· * 5) hlow
  have hr2 : r2' = r2 s := by
    simp only [r2', hhigh]
    exact Nat.and_two_pow_sub_one_eq_mod (p2 s) 8
  have hcombined : combined' = combined s := by
    simp only [combined', hr1, hr2, Nat.shiftLeft_eq]
    rfl
  calc (N s).toNat = (foldCarry s + combined s + 0x11) % 2 ^ 16 := N_toNat s
    _ = (combined' >>> 16 + combined' + 0x11) % 2 ^ 16 := by
      rw [hcombined, Nat.shiftRight_eq_div_pow]; rfl
    _ = (combined' >>> 16 + combined' + 0x11) &&& 0xFFFF := (Nat.and_two_pow_sub_one_eq_mod _ 16).symm

/-- Settles O10: masking `p2` to `r2` drops a multiple of 2^8, which the shift by 8 makes a multiple of 2^16, so modulo
2^16 the two products add up to `5 * s`. -/
theorem closedFormOfN : Obligations.ClosedFormOfN := by
  unfold Obligations.ClosedFormOfN
  intro s
  have hproducts : combined s % 2 ^ 16 = (5 * s.toNat + 0x100) % 2 ^ 16 := by
    rw [combined_eq]; omega
  apply BitVec.eq_of_toNat_eq
  rw [N_toNat, BitVec.toNat_ofNat]
  omega

/-! ### The states that carry (R106) -/

theorem foldCarry_eq_one_iff (s : Gen) : foldCarry s = 1 ↔ 0xFF00 ≤ r1 s + sh s := by
  have hr1 := r1_le s
  have hr2 := r2_le s
  rw [foldCarry, combined_eq_products, sh_eq]
  omega

/-- The first low byte that carries beside a given high byte: the least with `0xFF00 ≤ 5 * low + (r2 << 8)`. It is past
0xFF where no low byte does. -/
def firstCarryingLow (high : Nat) : Nat := ((0xFF - high * 5 % 256) * 256 + 4) / 5

theorem foldCarry_eq_one_iff_firstCarryingLow_le (s : Gen) :
    foldCarry s = 1 ↔ firstCarryingLow (highByte s).toNat ≤ (lowByte s).toNat := by
  rw [foldCarry_eq_one_iff, sh_eq, r1_eq_lowByte, r2_eq_highByte, firstCarryingLow]
  omega

/-- Only an `r2` of 0xFB or more is within reach of the largest `r1`, and 5 is invertible modulo 2^8, so each of those
five values is the product of one high byte. -/
theorem high_of_firstCarryingLow_le {high : Nat} (hh : high ≤ 0xFF) (h : firstCarryingLow high ≤ 0xFF) :
    high = 0x33 ∨ high = 0x66 ∨ high = 0x99 ∨ high = 0xCC ∨ high = 0xFF := by
  have hr2 : 0xFB ≤ high * 5 % 256 := by
    rw [firstCarryingLow] at h; omega
  have hvalues : high * 5 % 256 = 0xFF ∨ high * 5 % 256 = 0xFE ∨ high * 5 % 256 = 0xFD ∨
      high * 5 % 256 = 0xFC ∨ high * 5 % 256 = 0xFB := by omega
  rcases hvalues with e | e | e | e | e <;> omega

/-- The five rows of R106: the high byte, its `r2`, and the first low byte that carries. -/
theorem foldCarry_eq_one_iff_row (s : Gen) :
    let row := fun (high product firstLow : Nat) =>
      (highByte s).toNat = high ∧ r2 s = product ∧ firstLow ≤ (lowByte s).toNat
    (foldCarry s = 1 ↔
      row 0x33 0xFF 0x00 ∨ row 0x66 0xFE 0x34 ∨ row 0x99 0xFD 0x67 ∨ row 0xCC 0xFC 0x9A ∨ row 0xFF 0xFB 0xCD) := by
  intro row
  simp only [row, r2_eq_highByte, foldCarry_eq_one_iff_firstCarryingLow_le]
  constructor
  · intro h
    have hrow := high_of_firstCarryingLow_le (highByte_le s) (h.trans (lowByte_le s))
    rcases hrow with e | e | e | e | e <;> rw [e] at h ⊢
    · exact .inl ⟨rfl, rfl, h⟩
    · exact .inr (.inl ⟨rfl, rfl, h⟩)
    · exact .inr (.inr (.inl ⟨rfl, rfl, h⟩))
    · exact .inr (.inr (.inr (.inl ⟨rfl, rfl, h⟩)))
    · exact .inr (.inr (.inr (.inr ⟨rfl, rfl, h⟩)))
  · rintro (⟨e, -, h⟩ | ⟨e, -, h⟩ | ⟨e, -, h⟩ | ⟨e, -, h⟩ | ⟨e, -, h⟩) <;> rw [e] <;> exact h

theorem foldCarry_ofNat_eq_one_iff {high low : Nat} (hh : high < 256) (hl : low < 256) :
    foldCarry (BitVec.ofNat 16 (high * 256 + low)) = 1 ↔ firstCarryingLow high ≤ low := by
  rw [foldCarry_eq_one_iff_firstCarryingLow_le, highByte_toNat, lowByte_toNat, BitVec.toNat_ofNat]
  have hhigh : (high * 256 + low) % 2 ^ 16 / 256 = high := by omega
  have hlow : (high * 256 + low) % 2 ^ 16 % 256 = low := by omega
  rw [hhigh, hlow]

/-! ### Counting them -/

theorem count_eq_sub_of_iff_le {p : Nat → Prop} [DecidablePred p] {first n : Nat}
    (h : ∀ k < n, p k ↔ first ≤ k) : Nat.count p n = n - first := by
  have hfilter : (Finset.range n).filter p = Finset.Ico first n := by
    ext k
    simp only [Finset.mem_filter, Finset.mem_range, Finset.mem_Ico]
    exact ⟨fun ⟨hk, hp⟩ => ⟨(h k hk).mp hp, hk⟩, fun ⟨hle, hk⟩ => ⟨hk, (h k hk).mpr hle⟩⟩
  rw [Nat.count_eq_card_filter_range, hfilter, Nat.card_Ico]

/-- Counting in rows of equal length. -/
theorem count_mul_eq_sum_rows (p : Nat → Prop) [DecidablePred p] (len rows : Nat) :
    Nat.count p (rows * len) = ∑ i ∈ Finset.range rows, Nat.count (fun k => p (i * len + k)) len := by
  induction rows with
  | zero => simp
  | succ rows ih => rw [Nat.succ_mul, Nat.count_add, ih, Finset.sum_range_succ]

/-- How many of the 256 states with a given high byte carry. -/
theorem count_foldCarry_row {high : Nat} (hh : high < 256) :
    Nat.count (fun low => foldCarry (BitVec.ofNat 16 (high * 256 + low)) = 1) 256 = 256 - firstCarryingLow high :=
  count_eq_sub_of_iff_le fun _ hl => foldCarry_ofNat_eq_one_iff hh hl

/-- Outside the five rows of R106 no state carries, so the total is theirs: 256 + 204 + 153 + 102 + 51. -/
theorem count_foldCarry : Nat.count (fun n => foldCarry (BitVec.ofNat 16 n) = 1) 65536 = 766 := by
  have hrows : ({0x33, 0x66, 0x99, 0xCC, 0xFF} : Finset Nat) ⊆ Finset.range 256 := by
    simp [Finset.insert_subset_iff]
  have hrest : ∀ high ∈ Finset.range 256, high ∉ ({0x33, 0x66, 0x99, 0xCC, 0xFF} : Finset Nat) →
      256 - firstCarryingLow high = 0 := by
    intro high hh hout
    have hle : high ≤ 0xFF := Nat.le_of_lt_succ (Finset.mem_range.mp hh)
    by_contra hne
    have hrow := high_of_firstCarryingLow_le hle (by omega)
    exact hout (by simpa using hrow)
  calc Nat.count (fun n => foldCarry (BitVec.ofNat 16 n) = 1) (256 * 256)
      = ∑ high ∈ Finset.range 256, (256 - firstCarryingLow high) := by
        rw [count_mul_eq_sum_rows]
        exact Finset.sum_congr rfl fun high hh => count_foldCarry_row (Finset.mem_range.mp hh)
    _ = ∑ high ∈ {0x33, 0x66, 0x99, 0xCC, 0xFF}, (256 - firstCarryingLow high) :=
        (Finset.sum_subset hrows hrest).symm
    _ = 766 := rfl

/-- Settles O11: with a given high byte the states that carry are those from `firstCarryingLow` on, so a row's count is
256 less that, and the total is the sum over the rows. -/
theorem statesThatCarry : Obligations.StatesThatCarry := by
  unfold Obligations.StatesThatCarry
  refine ⟨fun s => Nat.le_one_iff_eq_zero_or_eq_one.mp (foldCarry_le_one s), foldCarry_eq_one_iff,
    foldCarry_eq_one_iff_row, ?_, count_foldCarry⟩
  have hrows : ∀ row ∈ [(0x33, 256), (0x66, 204), (0x99, 153), (0xCC, 102), (0xFF, 51)],
      row.1 < 256 ∧ 256 - firstCarryingLow row.1 = row.2 := by decide
  intro row hrow
  obtain ⟨hh, hcount⟩ := hrows row hrow
  rw [count_foldCarry_row hh, hcount]

/-! ### The decoder on the opcodes of NOP, SEED, ADV and ADVN (R72, R74) -/

theorem decodeNone_of_ne_zero {imm : Imm} (h : imm ≠ 0) (i : Instr) :
    decodeNone imm i = .illegal .reservedOperandBits := if_neg h

theorem decode_of_opcode_nop (histEn : Bool) {w : CmdWord} (h : opcode w = 0x0) :
    decode histEn w = decodeNone (operand w) .nop := by
  rw [decode, h]; rfl

theorem decode_of_opcode_seed (histEn : Bool) {w : CmdWord} (h : opcode w = 0x1) :
    decode histEn w = .command (.seed (operand w)) := by
  rw [decode, h]; rfl

theorem decode_of_opcode_adv (histEn : Bool) {w : CmdWord} (h : opcode w = 0x2) :
    decode histEn w = decodeNone (operand w) .adv := by
  rw [decode, h]; rfl

theorem decode_of_opcode_advn (histEn : Bool) {w : CmdWord} (h : opcode w = 0x4) :
    decode histEn w = .command (.advn (operand w)) := by
  rw [decode, h]; rfl

/-! ### The commands -/

theorem exec_nop (s : State) : exec .nop s = .next s := rfl

theorem exec_adv (s : State) : exec .adv s = .next (retireAdvance (N s.gen) s) := rfl

/-- ADVN 1 ticks once (R117). -/
theorem exec_advn_one (s : State) : exec (.advn 1) s = exec .adv s := by
  rw [exec_advn, exec_adv]; rfl

/-- Settles O22: `exec_advn` gives the effect for every count, and its cases 0 and 1 are `STATE` kept and one tick. -/
theorem advnTicksNTimes : Obligations.AdvnTicksNTimes := by
  unfold Obligations.AdvnTicksNTimes
  exact ⟨fun _ => rfl, exec_advn, exec_advn 0, exec_advn_one, fun histEn _ h => decode_of_opcode_advn histEn h⟩

/-- Settles O19: NOP answers the state it is given, and its form "none" rejects every operand but 0. -/
theorem nopHasNoEffect : Obligations.NopHasNoEffect := by
  unfold Obligations.NopHasNoEffect
  refine ⟨by decide, exec_nop, fun histEn w hop himm => ?_⟩
  rw [decode_of_opcode_nop histEn hop, decodeNone_of_ne_zero himm]

/-- Settles O20: SEED is a load of STATE, and its form imm16 takes every operand. -/
theorem seedLoadsTheState : Obligations.SeedLoadsTheState := by
  unfold Obligations.SeedLoadsTheState
  exact ⟨fun _ => rfl, exec_seed, fun histEn _ h => decode_of_opcode_seed histEn h⟩

/-- Settles O21: ADV retires one tick, and its form "none" rejects every operand but 0. -/
theorem advTicksOnce : Obligations.AdvTicksOnce := by
  unfold Obligations.AdvTicksOnce
  refine ⟨by decide, exec_adv, fun histEn w hop himm => ?_⟩
  rw [decode_of_opcode_adv histEn hop, decodeNone_of_ne_zero himm]

end Sys2Proof.Machine
end

section
/-! PROOFS. The obligations of 41_drop.md settled here: the drop function against its uncapped loop (R130 to R132), the
command DROP (R133), and the states that drop or need a second advance (R134 to R136). Before them, the low byte of the
next state, and the states with a given low byte as finite sets, with and without the fold carry. -/

namespace Sys2Proof.Machine

/-! ### The loop and the function (R130 to R132) -/

/-- What `drop` answers, the loop of R130 returns. -/
theorem dropRuns_drop (s : Gen) : DropRuns s (drop s).state (drop s).bit (drop s).advances := by
  by_cases hz : lowByte (N s) = 0
  · rw [drop_again hz]
    exact .again s _ _ 1 hz (.stop (N s) (lowByte_second_ne_zero hz))
  · rw [drop_stop hz]
    exact .stop s hz

/-- What the loop of R130 returns, `drop` answers. -/
theorem drop_eq_of_dropRuns {s s' : Gen} {b : Bool} {n : Nat} (h : DropRuns s s' b n) :
    drop s = { state := s', bit := b, advances := n } := by
  induction h with
  | stop s hz => exact drop_stop hz
  | again s s' b n hz _ ih => rw [drop_unfold hz, ih]

/-- Settles O14: a run of the loop is followed turn by turn with `drop_unfold`, and `drop` is itself such a run. -/
theorem dropIsTheUncappedLoop : Obligations.DropIsTheUncappedLoop := by
  unfold Obligations.DropIsTheUncappedLoop
  refine fun s s' b n => ⟨drop_eq_of_dropRuns, fun h => ?_⟩
  have hruns := dropRuns_drop s
  rwa [h] at hruns

/-! ### What the first advance settles (R132, R134) -/

theorem drop_advances_eq_two_iff (s : Gen) : (drop s).advances = 2 ↔ lowByte (N s) = 0 := by
  by_cases hz : lowByte (N s) = 0
  · simp [drop_again hz, hz]
  · simpa [drop_stop hz] using hz

theorem drop_advances_eq_one_or_two (s : Gen) : (drop s).advances = 1 ∨ (drop s).advances = 2 := by
  by_cases hz : lowByte (N s) = 0
  · exact .inr ((drop_advances_eq_two_iff s).mpr hz)
  · rw [drop_stop hz]
    exact .inl rfl

theorem drop_advances_eq_one_iff_ne_two (s : Gen) : (drop s).advances = 1 ↔ ¬ (drop s).advances = 2 := by
  have := drop_advances_eq_one_or_two s
  omega

/-- A second advance never drops. -/
theorem drop_bit_of_lowByte_zero {s : Gen} (hz : lowByte (N s) = 0) : (drop s).bit = false := by
  rw [drop_again hz]
  exact isHit_of_lowByte_zero hz

/-- The bit is that of the state after the first advance (R134). Where that state's low byte is 0 it is no hit, and
neither is the state after it. -/
theorem drop_bit (s : Gen) : (drop s).bit = isHit (N s) := by
  by_cases hz : lowByte (N s) = 0
  · rw [drop_bit_of_lowByte_zero hz, isHit, hz]
    rfl
  · rw [drop_stop hz]

theorem drop_bit_eq_true_iff (s : Gen) : (drop s).bit = true ↔ lowByte (N s) = 0x01 := by
  rw [drop_bit, isHit, beq_iff_eq]
  rfl

/-- Settles O16: both clauses are `drop` after its first advance. -/
theorem dropBitIsSettledByTheFirstAdvance : Obligations.DropBitIsSettledByTheFirstAdvance := by
  unfold Obligations.DropBitIsSettledByTheFirstAdvance
  exact fun s => ⟨drop_bit s, drop_bit_of_lowByte_zero⟩

/-! ### DROP (R133) -/

theorem decode_of_opcode_drop (histEn : Bool) {w : CmdWord} (h : opcode w = 0x3) :
    decode histEn w = decodeNone (operand w) .drop := by
  rw [decode, h]; rfl

theorem exec_drop (s : State) : exec .drop s = .next (retireDrop (drop s.gen).state (drop s.gen).bit s) := rfl

/-- Settles O23: DROP retires what `drop` answers, which is what the loop returns, and its form "none" rejects every
operand but 0. -/
theorem dropReturnsTheDropBit : Obligations.DropReturnsTheDropBit := by
  unfold Obligations.DropReturnsTheDropBit
  refine ⟨by decide, fun s s' b n hruns => ?_, fun s => ⟨_, _, _, dropRuns_drop s.gen⟩,
    fun histEn w hop himm => ?_⟩
  · rw [exec_drop, drop_eq_of_dropRuns hruns]
    rfl
  · rw [decode_of_opcode_drop histEn hop, decodeNone_of_ne_zero himm]

/-! ### The low byte of the next state -/

/-- The products of the high byte are multiples of 2^8, so only the low byte and the carry reach the next low byte. -/
theorem lowByte_N (s : Gen) : lowByte (N s) = BitVec.ofNat 8 (5 * (lowByte s).toNat + 0x11 + foldCarry s) := by
  apply BitVec.eq_of_toNat_eq
  rw [lowByte_toNat (N s), N_toNat, combined_eq_products, r1_eq_lowByte, sh_eq, BitVec.toNat_ofNat]
  omega

theorem foldCarry_eq_zero_or_one (s : Gen) : foldCarry s = 0 ∨ foldCarry s = 1 :=
  Nat.le_one_iff_eq_zero_or_eq_one.mp (foldCarry_le_one s)

theorem foldCarry_eq_zero_iff_ne_one (s : Gen) : foldCarry s = 0 ↔ ¬ foldCarry s = 1 := by
  have := foldCarry_le_one s
  omega

/-- 5 is invertible modulo 2^8, with inverse 205, so for each value of the carry one low byte leads to `v`. -/
theorem lowByte_N_eq_iff (s : Gen) (v : Byte) :
    lowByte (N s) = v ↔
      (lowByte s = 205 * (v - 0x11) ∧ foldCarry s = 0) ∨ (lowByte s = 205 * (v - 0x12) ∧ foldCarry s = 1) := by
  rw [lowByte_N]
  rcases foldCarry_eq_zero_or_one s with hc | hc <;> rw [hc]
  · simp only [and_true, zero_ne_one, and_false, or_false]
    bv_omega
  · simp only [one_ne_zero, and_false, and_true, false_or]
    bv_omega

/-- The two ways to drop (R135). -/
theorem drop_bit_eq_true_iff_carry (s : Gen) :
    (drop s).bit = true ↔ (lowByte s = 0x30 ∧ foldCarry s = 0) ∨ (lowByte s = 0x63 ∧ foldCarry s = 1) := by
  rw [drop_bit_eq_true_iff]
  exact lowByte_N_eq_iff s 0x01

/-- The two ways to need a second advance (R136). -/
theorem drop_advances_eq_two_iff_carry (s : Gen) :
    (drop s).advances = 2 ↔ (lowByte s = 0x63 ∧ foldCarry s = 0) ∨ (lowByte s = 0x96 ∧ foldCarry s = 1) := by
  rw [drop_advances_eq_two_iff]
  exact lowByte_N_eq_iff s 0x00

/-! ### The states with a given low byte -/

/-- `{high, low}` of R22. -/
def stateOfBytes (high : Nat) (low : Byte) : Gen := BitVec.ofNat 16 (high * 256 + low.toNat)

/-- The states with low byte `low` and a high byte among `highs`. -/
def statesOfHighs (highs : Finset Nat) (low : Byte) : Finset Gen := highs.image (stateOfBytes · low)

theorem eq_stateOfBytes_iff {high : Nat} (hh : high < 256) (low : Byte) (s : Gen) :
    s = stateOfBytes high low ↔ (highByte s).toNat = high ∧ lowByte s = low := by
  have hlow := low.isLt
  rw [stateOfBytes, ← BitVec.toNat_inj, ← BitVec.toNat_inj, highByte_toNat, lowByte_toNat, BitVec.toNat_ofNat]
  omega

theorem mem_statesOfHighs {highs : Finset Nat} (hh : highs ⊆ Finset.range 256) (low : Byte) (s : Gen) :
    s ∈ statesOfHighs highs low ↔ (highByte s).toNat ∈ highs ∧ lowByte s = low := by
  rw [statesOfHighs, Finset.mem_image]
  constructor
  · rintro ⟨high, hmem, hs⟩
    obtain ⟨rfl, hlow⟩ := (eq_stateOfBytes_iff (Finset.mem_range.mp (hh hmem)) low s).mp hs.symm
    exact ⟨hmem, hlow⟩
  · rintro ⟨hmem, hlow⟩
    exact ⟨_, hmem, ((eq_stateOfBytes_iff (highByte s).isLt low s).mpr ⟨rfl, hlow⟩).symm⟩

theorem card_statesOfHighs {highs : Finset Nat} (hh : highs ⊆ Finset.range 256) (low : Byte) :
    (statesOfHighs highs low).card = highs.card := by
  refine Finset.card_image_of_injOn fun high hmem high' hmem' h => ?_
  obtain ⟨e, -⟩ := (eq_stateOfBytes_iff (Finset.mem_range.mp (hh hmem)) low _).mp rfl
  obtain ⟨e', -⟩ := (eq_stateOfBytes_iff (Finset.mem_range.mp (hh hmem')) low _).mp h
  exact e.symm.trans e'

/-- The high bytes that carry beside this low byte: those of the rows of R106 that reach down to it. -/
def carryingHighs (low : Byte) : Finset Nat :=
  ({0x33, 0x66, 0x99, 0xCC, 0xFF} : Finset Nat).filter (firstCarryingLow · ≤ low.toNat)

theorem carryingHighs_subset (low : Byte) : carryingHighs low ⊆ Finset.range 256 :=
  (Finset.filter_subset _ _).trans (by decide)

theorem highByte_mem_carryingHighs_iff (s : Gen) :
    (highByte s).toNat ∈ carryingHighs (lowByte s) ↔ foldCarry s = 1 := by
  rw [foldCarry_eq_one_iff_firstCarryingLow_le, carryingHighs, Finset.mem_filter]
  refine and_iff_right_of_imp fun h => ?_
  have hrow := high_of_firstCarryingLow_le (highByte_le s) (h.trans (lowByte_le s))
  simpa using hrow

/-- The states with this low byte that carry. -/
def carryingStates (low : Byte) : Finset Gen := statesOfHighs (carryingHighs low) low

/-- The states with this low byte that do not carry. -/
def carryFreeStates (low : Byte) : Finset Gen := statesOfHighs (Finset.range 256 \ carryingHighs low) low

theorem mem_carryingStates (low : Byte) (s : Gen) :
    s ∈ carryingStates low ↔ lowByte s = low ∧ foldCarry s = 1 := by
  rw [carryingStates, mem_statesOfHighs (carryingHighs_subset low), and_comm]
  refine and_congr_right fun h => ?_
  rw [← h, highByte_mem_carryingHighs_iff]

theorem mem_carryFreeStates (low : Byte) (s : Gen) :
    s ∈ carryFreeStates low ↔ lowByte s = low ∧ foldCarry s = 0 := by
  rw [carryFreeStates, mem_statesOfHighs Finset.sdiff_subset, and_comm]
  refine and_congr_right fun h => ?_
  rw [← h, Finset.mem_sdiff, highByte_mem_carryingHighs_iff, foldCarry_eq_zero_iff_ne_one]
  exact and_iff_right (Finset.mem_range.mpr (highByte s).isLt)

/-- Without a carry means none of the states that carry. -/
theorem mem_carryFreeStates_iff_notMem (low : Byte) (s : Gen) :
    s ∈ carryFreeStates low ↔ lowByte s = low ∧ s ∉ carryingStates low := by
  rw [mem_carryFreeStates, mem_carryingStates, foldCarry_eq_zero_iff_ne_one]
  tauto

theorem card_carryingStates (low : Byte) : (carryingStates low).card = (carryingHighs low).card :=
  card_statesOfHighs (carryingHighs_subset low) low

theorem card_carryFreeStates (low : Byte) : (carryFreeStates low).card = 256 - (carryingHighs low).card := by
  rw [carryFreeStates, card_statesOfHighs Finset.sdiff_subset, Finset.card_sdiff_of_subset (carryingHighs_subset low),
    Finset.card_range]

theorem carryingStates_0x30 : carryingStates 0x30 = {0x3330} := by decide

theorem carryingStates_0x63 : carryingStates 0x63 = {0x3363, 0x6663} := by decide

theorem carryingStates_0x96 : carryingStates 0x96 = {0x3396, 0x6696, 0x9996} := by decide

/-! ### Counting states -/

/-- Counting below 2^16 is counting states. -/
theorem count_eq_card {p : Nat → Prop} [DecidablePred p] {states : Finset Gen}
    (h : ∀ s : Gen, p s.toNat ↔ s ∈ states) : Nat.count p 65536 = states.card := by
  have himage : (Finset.range 65536).filter p = states.image BitVec.toNat := by
    ext n
    rw [Finset.mem_filter, Finset.mem_range, Finset.mem_image]
    constructor
    · rintro ⟨hn, hp⟩
      have hmod : (BitVec.ofNat 16 n).toNat = n := Nat.mod_eq_of_lt hn
      exact ⟨BitVec.ofNat 16 n, (h _).mp (by rwa [hmod]), hmod⟩
    · rintro ⟨s, hs, rfl⟩
      exact ⟨s.isLt, (h s).mpr hs⟩
  rw [Nat.count_eq_card_filter_range, himage,
    Finset.card_image_of_injective _ fun _ _ => BitVec.eq_of_toNat_eq]

/-- Each of the 256 high bytes gives one state with this low byte. -/
theorem count_lowByte (low : Byte) : Nat.count (fun n => lowByte (BitVec.ofNat 16 n) = low) 65536 = 256 := by
  rw [count_eq_card (states := statesOfHighs (Finset.range 256) low), card_statesOfHighs (Finset.Subset.refl _),
    Finset.card_range]
  intro s
  rw [mem_statesOfHighs (Finset.Subset.refl _), BitVec.ofNat_toNat, BitVec.setWidth_eq]
  exact (and_iff_right (Finset.mem_range.mpr (highByte s).isLt)).symm

/-- How many states have this low byte and are none of those that carry. -/
theorem count_lowByte_not_carrying {p : Nat → Prop} [DecidablePred p] {low : Byte}
    (h : ∀ s : Gen, p s.toNat ↔ lowByte s = low ∧ s ∉ carryingStates low) :
    Nat.count p 65536 = 256 - (carryingHighs low).card := by
  rw [count_eq_card fun s => (h s).trans (mem_carryFreeStates_iff_notMem low s).symm, card_carryFreeStates]

/-- How many states have one low byte and do not carry, or have another and carry. -/
theorem count_carryFree_or_carrying {p : Gen → Prop} [DecidablePred p] {low low' : Byte} (hne : low ≠ low')
    (h : ∀ s, p s ↔ (lowByte s = low ∧ foldCarry s = 0) ∨ (lowByte s = low' ∧ foldCarry s = 1)) :
    Nat.count (fun n => p (BitVec.ofNat 16 n)) 65536 =
      256 - (carryingHighs low).card + (carryingHighs low').card := by
  have hdisjoint : Disjoint (carryFreeStates low) (carryingStates low') := by
    refine Finset.disjoint_left.mpr fun s hs hs' => hne ?_
    obtain ⟨hlow, -⟩ := (mem_carryFreeStates low s).mp hs
    obtain ⟨hlow', -⟩ := (mem_carryingStates low' s).mp hs'
    exact hlow.symm.trans hlow'
  rw [count_eq_card (states := carryFreeStates low ∪ carryingStates low'),
    Finset.card_union_of_disjoint hdisjoint, card_carryFreeStates, card_carryingStates]
  intro s
  rw [Finset.mem_union, mem_carryFreeStates, mem_carryingStates, BitVec.ofNat_toNat, BitVec.setWidth_eq, h]

theorem count_eq_sub_of_iff_not {p q : Nat → Prop} [DecidablePred p] [DecidablePred q] (h : ∀ k, p k ↔ ¬ q k)
    (n : Nat) : Nat.count p n = n - Nat.count q n := by
  have hsum := Finset.card_filter_add_card_filter_not (s := Finset.range n) q
  rw [← Finset.filter_congr fun k _ => h k, ← Nat.count_eq_card_filter_range, ← Nat.count_eq_card_filter_range,
    Finset.card_range] at hsum
  exact Nat.eq_sub_of_add_eq' hsum

/-! ### The statements with counts -/

theorem count_drop_advances_two :
    Nat.count (fun n => (drop (BitVec.ofNat 16 n)).advances = 2) 65536 = 257 :=
  (count_carryFree_or_carrying (by decide) drop_advances_eq_two_iff_carry).trans (by decide)

theorem count_drop_bit : Nat.count (fun n => (drop (BitVec.ofNat 16 n)).bit = true) 65536 = 257 :=
  (count_carryFree_or_carrying (by decide) drop_bit_eq_true_iff_carry).trans (by decide)

/-- The states that need one advance are the others. -/
theorem count_drop_advances_one :
    Nat.count (fun n => (drop (BitVec.ofNat 16 n)).advances = 1) 65536 = 65279 := by
  rw [count_eq_sub_of_iff_not fun _ => drop_advances_eq_one_iff_ne_two _, count_drop_advances_two]

/-- Settles O15: a second advance comes exactly after a zero low byte, and it never drops; the states that need it are
those without carry of one low byte and those with carry of another. -/
theorem dropTakesOneOrTwoAdvances : Obligations.DropTakesOneOrTwoAdvances := by
  unfold Obligations.DropTakesOneOrTwoAdvances
  exact ⟨drop_advances_eq_one_or_two,
    fun s h => drop_bit_of_lowByte_zero ((drop_advances_eq_two_iff s).mp h),
    count_drop_advances_one, count_drop_advances_two⟩

/-- Settles O17: 5 * low + 0x11 + c is 1 modulo 2^8 for one low byte without carry and one with it, and of the states
with those low bytes the ones that carry are listed. -/
theorem statesThatDrop : Obligations.StatesThatDrop := by
  unfold Obligations.StatesThatDrop
  refine ⟨fun s => ?_, drop_bit_eq_true_iff_carry, fun s => ?_, by decide, ?_, count_drop_bit⟩
  · rw [drop_bit_eq_true_iff, lowByte_N]
  · rw [drop_bit_eq_true_iff_carry, ← mem_carryFreeStates, ← mem_carryingStates, mem_carryFreeStates_iff_notMem,
      carryingStates_0x30, carryingStates_0x63]
    simp only [Finset.mem_insert, Finset.mem_singleton, ne_eq]
  · refine (count_lowByte_not_carrying (low := 0x30) fun s => ?_).trans (by decide)
    rw [carryingStates_0x30, BitVec.ofNat_toNat, BitVec.setWidth_eq, Finset.mem_singleton,
      ← BitVec.toNat_inj (x := s)]
    rfl

/-- Settles O18: as for O17 with 0 in place of 1. -/
theorem statesThatNeedASecondAdvance : Obligations.StatesThatNeedASecondAdvance := by
  unfold Obligations.StatesThatNeedASecondAdvance
  refine ⟨drop_advances_eq_two_iff, drop_advances_eq_two_iff_carry, fun s => ?_, ?_, count_drop_advances_two,
    count_lowByte 0x00, fun _ => lowByte_N_of_zero⟩
  · rw [drop_advances_eq_two_iff_carry, ← mem_carryFreeStates, ← mem_carryingStates, mem_carryFreeStates_iff_notMem,
      carryingStates_0x63, carryingStates_0x96]
    simp only [Finset.mem_insert, Finset.mem_singleton, not_or, ne_eq]
  · refine (count_lowByte_not_carrying (low := 0x63) fun s => ?_).trans (by decide)
    rw [carryingStates_0x63, BitVec.ofNat_toNat, BitVec.setWidth_eq, Finset.mem_insert, Finset.mem_singleton,
      not_or, ← BitVec.toNat_inj (x := s), ← BitVec.toNat_inj (x := s)]
    rfl

end Sys2Proof.Machine
end

section
/-! PROOFS. The obligations of 42_outcome_histogram.md settled here: the ones counter (R153), the outcome protocol
(R151) and the commands SIM, SIMACC, HCLR and HREAD (R158 to R167). Before them, the laws of the drop bits, the
protocol's final state and bits in terms of its five drops, and the decoder on the opcodes of option HIST. -/

namespace Sys2Proof.Machine

/-! ### The drop bits and the ones counter (R152, R153) -/

/-- Assigning a drop bit writes that bit and no other. -/
theorem getLsbD_assignBit {i : Nat} (hi : i < 5) (dv : DropVec) (b : Bool) (j : Nat) :
    (assignBit dv i b).getLsbD j = if i = j then b else dv.getLsbD j := by
  by_cases hij : i = j
  · subst hij
    cases b <;> simp [assignBit, hi]
  · cases b with
    | true => simp [assignBit, BitVec.getLsbD_twoPow, hij]
    | false => simpa [assignBit, BitVec.getLsbD_twoPow, hij] using BitVec.lt_of_getLsbD

theorem onesSum_le_five (dv : DropVec) : onesSum dv ≤ 5 := by
  have h0 := Bool.toNat_le (dv.getLsbD 0)
  have h1 := Bool.toNat_le (dv.getLsbD 1)
  have h2 := Bool.toNat_le (dv.getLsbD 2)
  have h3 := Bool.toNat_le (dv.getLsbD 3)
  have h4 := Bool.toNat_le (dv.getLsbD 4)
  rw [onesSum]
  omega

/-- Three wires hold the sum of five bits. -/
theorem onesCount_toNat (dv : DropVec) : (onesCount dv).toNat = onesSum dv := by
  have hle := onesSum_le_five dv
  rw [onesCount, BitVec.toNat_ofNat, Nat.mod_eq_of_lt (by omega)]

/-- Settles O25: the sum is at most 5, so putting it on three wires loses nothing. -/
theorem onesCounterAddsTheFiveBits : Obligations.OnesCounterAddsTheFiveBits := by
  unfold Obligations.OnesCounterAddsTheFiveBits
  intro dv
  rw [onesCount_toNat]
  exact ⟨rfl, onesSum_le_five dv⟩

/-! ### The outcome protocol (R151) -/

/-- The five drop bits as they are assigned, first to last. -/
def assignBits (a b c d e : Bool) : DropVec :=
  assignBit (assignBit (assignBit (assignBit (assignBit 0 0 a) 1 b) 2 c) 3 d) 4 e

/-- Each drop bit keeps the value it was assigned: the later assignments write other bits. -/
theorem getLsbD_assignBits (a b c d e : Bool) :
    (assignBits a b c d e).getLsbD 0 = a ∧ (assignBits a b c d e).getLsbD 1 = b ∧
    (assignBits a b c d e).getLsbD 2 = c ∧ (assignBits a b c d e).getLsbD 3 = d ∧
    (assignBits a b c d e).getLsbD 4 = e := by
  simp only [assignBits, getLsbD_assignBit, Nat.reduceLT, Nat.reduceEqDiff, reduceIte, and_self]

/-- The protocol's operations run in order: each drop starts from the state the step before it left (R151). -/
theorem outcome_state_dv (s : Gen) :
    let a := drop (N s)
    let b := drop (N a.state)
    let c := drop (N b.state)
    let d := drop (N c.state)
    let e := drop (N^[176] d.state)
    (outcome s).state = e.state ∧ (outcome s).dv = assignBits a.bit b.bit c.bit d.bit e.bit := by
  simp only [outcome_eq_runs, runDrop, runAdvances, runPair_state, runPair_dv, advances_eq_iterate, true_and]
  rfl

/-- Settles O24: the protocol's operations are run in order by `outcome_state_dv`; each of the five bits is its own
drop's, and the ones counter adds them. -/
theorem outcomeIsThePairsTheBurnAndTheLastDrop : Obligations.OutcomeIsThePairsTheBurnAndTheLastDrop := by
  unfold Obligations.OutcomeIsThePairsTheBurnAndTheLastDrop
  intro s a b c d e dv
  obtain ⟨hstate, hdv⟩ : (outcome s).state = e.state ∧ dv = assignBits a.bit b.bit c.bit d.bit e.bit :=
    outcome_state_dv s
  obtain ⟨h0, h1, h2, h3, h4⟩ := hdv ▸ getLsbD_assignBits a.bit b.bit c.bit d.bit e.bit
  refine ⟨hstate, ⟨h0, h1, h2, h3, h4⟩, ?_⟩
  rw [onesCount_toNat, onesSum, h0, h1, h2, h3, h4]

/-! ### The decoder on the opcodes of option HIST (R72 to R74) -/

@[simp] theorem decodeHist_false (d : Decoded) : decodeHist false d = .illegal .reservedOpcode := rfl

@[simp] theorem decodeHist_true (d : Decoded) : decodeHist true d = d := rfl

theorem decode_of_opcode_sim (histEn : Bool) {w : CmdWord} (h : opcode w = 0x8) :
    decode histEn w = decodeHist histEn (decodeNone (operand w) .sim) := by
  rw [decode, h]; rfl

theorem decode_of_opcode_simacc (histEn : Bool) {w : CmdWord} (h : opcode w = 0x9) :
    decode histEn w = decodeHist histEn (decodeNone (operand w) .simacc) := by
  rw [decode, h]; rfl

theorem decode_of_opcode_hclr (histEn : Bool) {w : CmdWord} (h : opcode w = 0xA) :
    decode histEn w = decodeHist histEn (decodeNone (operand w) .hclr) := by
  rw [decode, h]; rfl

theorem decode_of_opcode_hread (histEn : Bool) {w : CmdWord} (h : opcode w = 0xB) :
    decode histEn w = decodeHist histEn (decodeIndex (operand w)) := by
  rw [decode, h]; rfl

/-- The two causes of a word of option HIST in the form "none" (R71, R73). -/
theorem decode_illegal_of_histNone {w : CmdWord} {i : Instr}
    (hw : ∀ histEn, decode histEn w = decodeHist histEn (decodeNone (operand w) i)) :
    decode false w = .illegal .reservedOpcode ∧
    (operand w ≠ 0 → decode true w = .illegal .reservedOperandBits) := by
  refine ⟨hw false, fun himm => ?_⟩
  rw [hw true, decodeHist_true, decodeNone_of_ne_zero himm]

theorem decodeIndex_of_reserved_ne_zero {imm : Imm} (h : indexReserved imm ≠ 0) :
    decodeIndex imm = .illegal .reservedOperandBits := if_pos h

theorem decodeIndex_of_index_ge {imm : Imm} (hr : indexReserved imm = 0) (hk : 6 ≤ (indexField imm).toNat) :
    decodeIndex imm = .illegal .indexOutOfRange := by
  rw [decodeIndex, if_neg (not_not_intro hr), if_pos hk]

/-! ### The commands (R158 to R167) -/

theorem exec_hclr {s : State} {h : HistPart} (hs : s.hist = some h) :
    exec .hclr s = .next (clearCounters h s) := by
  simp only [exec, execHclr, withHist_some hs]

theorem exec_hread {s : State} {h : HistPart} (hs : s.hist = some h) {k : CounterIndex} (hk : k.toNat < 6) :
    exec (.hread k) s = .next (readCounter h ⟨k.toNat, hk⟩ s) := by
  simp only [exec, execHread, withHist_some hs, counterSlot_of_lt hk]

/-- Counting an outcome adds one to its own counter, wrapping at 2^32 (R162), and to no other. -/
theorem counters_bump_outcomeSlot (h : HistPart) (dv : DropVec) (j : Fin 6) :
    (h.bump (outcomeSlot dv)).counters[j] =
      if j.val = (onesCount dv).toNat then BitVec.ofNat 32 (h.counters[j].toNat + 1) else h.counters[j] := by
  have hsucc : BitVec.ofNat 32 (h.counters[j].toNat + 1) = h.counters[j] + 1 := by
    rw [BitVec.ofNat_add, BitVec.ofNat_toNat, BitVec.setWidth_eq]
    rfl
  rw [hsucc]
  simp only [Fin.getElem_fin, HistPart.bump_counters, outcomeSlot, eq_comm]

/-- Settles O28: SIMACC retires the protocol's run and bumps the counter `outcomeSlot` selects. -/
theorem simaccCountsTheOutcome : Obligations.SimaccCountsTheOutcome := by
  unfold Obligations.SimaccCountsTheOutcome
  exact ⟨by decide, fun s h hs => ⟨_, exec_simacc hs, rfl, counters_bump_outcomeSlot _ _⟩,
    fun _ hop => decode_illegal_of_histNone fun histEn => decode_of_opcode_simacc histEn hop⟩

/-- Settles O27: SIM retires the protocol's run with the counters as they were. -/
theorem simRunsTheProtocol : Obligations.SimRunsTheProtocol := by
  unfold Obligations.SimRunsTheProtocol
  exact ⟨by decide, fun _ _ hs => exec_sim hs,
    fun _ hop => decode_illegal_of_histNone fun histEn => decode_of_opcode_sim histEn hop⟩

/-- Settles O29: HCLR clears the counters of the option's registers and leaves `DVEC` beside them. -/
theorem hclrClearsEveryCounter : Obligations.HclrClearsEveryCounter := by
  unfold Obligations.HclrClearsEveryCounter
  exact ⟨by decide, fun s h hs => ⟨h.clear, exec_hclr hs, h.clear_dvec, fun k => h.clear_counters k k.isLt⟩,
    fun _ hop => decode_illegal_of_histNone fun histEn => decode_of_opcode_hclr histEn hop⟩

/-- Settles O30: HREAD reads the counter its index selects, and the form idx3 makes its two tests in the order of
R74. -/
theorem hreadReturnsTheCounter : Obligations.HreadReturnsTheCounter := by
  unfold Obligations.HreadReturnsTheCounter
  refine ⟨fun _ => rfl, fun s h k hk hs => exec_hread hs hk, fun w hop => ⟨?_, fun hr => ?_, fun hr hk => ?_⟩⟩
  · exact decode_of_opcode_hread false hop
  · rw [decode_of_opcode_hread true hop, decodeHist_true, decodeIndex_of_reserved_ne_zero hr]
  · rw [decode_of_opcode_hread true hop, decodeHist_true, decodeIndex_of_index_ge hr hk]

end Sys2Proof.Machine
end

section
/-! PROOFS. The obligations of 60_exceptions.md settled here: which words are illegal under which cause (R201, R203), what
accepting one does (R202), and that the error record is sticky until reset (R206). Before them, the decoder by operand
form, and what each operation of the unit leaves of the error record. -/

namespace Sys2Proof.Machine

/-! ### The causes each operand form tests (R71, R73, R74) -/

theorem decodeNone_eq_illegal_iff (imm : Imm) (i : Instr) (c : IllegalCause) :
    decodeNone imm i = .illegal c ↔ imm ≠ 0 ∧ .reservedOperandBits = c := by
  by_cases h : imm = 0
  · simp [decodeNone, h]
  · rw [decodeNone_of_ne_zero h, Decoded.illegal.injEq, and_iff_right h]

/-- The index is looked at only when the reserved operand bits are 0. -/
theorem decodeIndex_eq_illegal_iff (imm : Imm) (c : IllegalCause) :
    decodeIndex imm = .illegal c ↔
      (indexReserved imm ≠ 0 ∧ .reservedOperandBits = c) ∨
      (indexReserved imm = 0 ∧ 6 ≤ (indexField imm).toNat ∧ .indexOutOfRange = c) := by
  by_cases hr : indexReserved imm = 0
  · by_cases hk : 6 ≤ (indexField imm).toNat <;> simp [decodeIndex, hr, hk]
  · rw [decodeIndex_of_reserved_ne_zero hr, Decoded.illegal.injEq]
    simp only [ne_eq, hr, not_false_eq_true, true_and, false_and, or_false]

/-- Without option HIST the operand is not looked at. -/
theorem decodeHist_eq_illegal_iff (histEn : Bool) (d : Decoded) (c : IllegalCause) :
    decodeHist histEn d = .illegal c ↔
      (histEn = false ∧ .reservedOpcode = c) ∨ (histEn = true ∧ d = .illegal c) := by
  cases histEn <;> simp

/-! ### Which words are illegal (R201, R203) -/

/-- The decoder by operand form: the opcode, among the five groups of R72, decides which tests the word is put to. -/
theorem decode_by_form (histEn : Bool) (w : CmdWord) {op : Nat} (hop : (opcode w).toNat = op) :
    (op ∈ [0x5, 0x6, 0x7, 0xC, 0xD, 0xE, 0xF] ∧ decode histEn w = .illegal .reservedOpcode) ∨
    (op ∈ [0x1, 0x4] ∧ ∃ i, decode histEn w = .command i) ∨
    (op ∈ [0x0, 0x2, 0x3] ∧ ∃ i, decode histEn w = decodeNone (operand w) i) ∨
    (op ∈ [0x8, 0x9, 0xA] ∧ ∃ i, decode histEn w = decodeHist histEn (decodeNone (operand w) i)) ∨
    (op = 0xB ∧ decode histEn w = decodeHist histEn (decodeIndex (operand w))) := by
  have hlt : op < 16 := hop ▸ (opcode w).isLt
  rw [decode, hop]
  split
  case h_2 | h_5 => exact .inr (.inl ⟨by decide, _, rfl⟩)
  case h_1 | h_3 | h_4 => exact .inr (.inr (.inl ⟨by decide, _, rfl⟩))
  case h_6 | h_7 | h_8 => exact .inr (.inr (.inr (.inl ⟨by decide, _, rfl⟩)))
  case h_9 => exact .inr (.inr (.inr (.inr ⟨rfl, rfl⟩)))
  case h_10 =>
    refine .inl ⟨?_, rfl⟩
    simp only [List.mem_cons, List.not_mem_nil, or_false, imp_false] at *
    omega

/-- Settles O4: in each form of `decode_by_form` the opcode settles which conditions of R201 can be met, and the form's
own test says which of them is. -/
theorem illegalWordsByFirstCauseMet : Obligations.IllegalWordsByFirstCauseMet := by
  unfold Obligations.IllegalWordsByFirstCauseMet
  refine ⟨fun histEn w => ?_, by decide, by decide, by decide⟩
  generalize hopcode : (opcode w).toNat = op
  obtain ⟨hop, hd⟩ | ⟨hop, i, hd⟩ | ⟨hop, i, hd⟩ | ⟨hop, i, hd⟩ | ⟨hop, hd⟩ := decode_by_form histEn w hopcode
  · simp [hd, hop]
  · simp only [List.mem_cons, List.not_mem_nil, or_false] at hop
    rcases hop with rfl | rfl <;> simp [hd]
  · simp only [List.mem_cons, List.not_mem_nil, or_false] at hop
    rcases hop with rfl | rfl | rfl <;> simp [hd, decodeNone_eq_illegal_iff]
  · simp only [List.mem_cons, List.not_mem_nil, or_false] at hop
    rcases hop with rfl | rfl | rfl <;> cases histEn <;> simp [hd, decodeNone_eq_illegal_iff]
  · subst hop
    cases histEn <;> simp [hd, decodeIndex_eq_illegal_iff]

/-! ### Accepting an illegal word (R202) -/

/-- A step of an idle unit accepts the head of the host's list (R245). -/
theorem step_accept {s : State} {w : CmdWord} {rest : List CmdWord} (hp : s.phase = .idle)
    (hc : s.commands = w :: rest) : step s = runWord w { s with commands := rest } := by
  simp only [step, stepUnit, hp, stepIdle, nextCommand, hc]

theorem acceptWord_illegal {s : State} {w : CmdWord} {c : IllegalCause} (h : decode s.histEn w = .illegal c) :
    acceptWord w s = raiseIllegal c w s := by
  simp only [acceptWord, h]

theorem acceptWord_command {s : State} {w : CmdWord} {i : Instr} (h : decode s.histEn w = .command i) :
    acceptWord w s = beginInstr i s := by
  simp only [acceptWord, h]

theorem cmdReady_of_idle {s : State} (hp : s.phase = .idle) : cmdReady false s = true := by
  simp only [cmdReady, State.busy, hp, Bool.not_false, Bool.and_self]

/-- The recording in the order of R202: its test is `ILL = 0`. -/
theorem raiseIllegal_eq_ite_not_ill (c : IllegalCause) (w : CmdWord) (s : State) :
    raiseIllegal c w s = { s with
      ill := true
      cause := if s.ill = false then c.code else s.cause
      illcmd := if s.ill = false then w else s.illcmd } := by
  cases h : s.ill <;> simp [raiseIllegal, h]

/-- Settles O38: both levels give the accepted word to `raiseIllegal`, which leaves the sequencer idle. -/
theorem illegalWordRecordsTheFirstError : Obligations.IllegalWordRecordsTheFirstError := by
  unfold Obligations.IllegalWordRecordsTheFirstError
  refine ⟨fun s w rest c hp hc hd => ?_, fun s p c hp hr hv hd => ?_⟩
  · rw [step_accept hp hc, runWord_illegal (s := { s with commands := rest }) hd, raiseIllegal_eq_ite_not_ill]
  · rw [clockEdge_accept hr hv hp, acceptWord_illegal hd]
    exact ⟨raiseIllegal_eq_ite_not_ill c p.cmd s, cmdReady_of_idle hp⟩

/-! ### The error record under each operation (R206) -/

/-- `ILL`, `CAUSE` and `ILLCMD`, which R202 writes together (R27, R28). -/
def State.errorRecord (s : State) : Bool × BitVec 2 × CmdWord := (s.ill, s.cause, s.illcmd)

theorem errorRecord_eq_iff (s t : State) :
    t.errorRecord = s.errorRecord ↔ t.ill = s.ill ∧ t.cause = s.cause ∧ t.illcmd = s.illcmd := by
  simp only [State.errorRecord, Prod.mk.injEq]

/-- An illegal command issued while `ILL = 1` changes nothing (R206). -/
theorem raiseIllegal_of_ill {s : State} (hill : s.ill = true) (c : IllegalCause) (w : CmdWord) :
    raiseIllegal c w s = s := by
  simp only [raiseIllegal, hill, if_true]
  rw [← hill]

theorem errorRecord_withHist {i : Instr} {s : State} {f : HistPart → State} (hill : s.ill = true)
    (hf : ∀ h, (f h).errorRecord = s.errorRecord) : (withHist i s f).errorRecord = s.errorRecord := by
  cases hs : s.hist with
  | none => rw [withHist_none hs, raiseIllegal_of_ill hill]
  | some h => rw [withHist_some hs, hf h]

theorem errorRecord_finishJob (job : Job) (work : Gen) (s : State) :
    (finishJob job work s).errorRecord = s.errorRecord := by
  cases job with
  | advn left => rfl
  | drop => rfl
  | outcome a step dv => cases hs : s.hist <;> simp only [finishJob, hs] <;> rfl

/-- A cycle of a command in flight retires it or only moves the sequencer. -/
theorem errorRecord_tickJob (job : Job) (work : Gen) (s : State) :
    (tickJob job work s).errorRecord = s.errorRecord := by
  obtain ⟨-, hretire⟩ | ⟨job', work', -, hbusy⟩ := tickJob_cases job work s
  · rw [hretire, errorRecord_finishJob]
  · rw [hbusy]; rfl

/-- No command writes the error record while `ILL = 1`: those that are turned away raise again, and the others write
their own registers only. -/
theorem errorRecord_exec {i : Instr} {s t : State} (hill : s.ill = true) (h : exec i s = .next t) :
    t.errorRecord = s.errorRecord := by
  cases i with
  | nop | seed _ | adv | drop | advn _ => cases h; rfl
  | sim | simacc | hclr => cases h; exact errorRecord_withHist hill fun _ => rfl
  | hread k =>
    cases h
    refine errorRecord_withHist hill fun h => ?_
    cases counterSlot k with
    | none => exact congrArg State.errorRecord (raiseIllegal_of_ill hill _ _)
    | some j => rfl

theorem errorRecord_runWord {w : CmdWord} {s t : State} (hill : s.ill = true) (h : runWord w s = .next t) :
    t.errorRecord = s.errorRecord := by
  cases hd : decode s.histEn w with
  | command i => exact errorRecord_exec hill ((runWord_command hd).symm.trans h)
  | illegal c =>
    rw [runWord_illegal hd, raiseIllegal_of_ill hill] at h
    cases h; rfl

/-- The acceptance edge of a command (R53, R240): the command retires at it with its whole effect, or it is the first
cycle of a job. -/
theorem beginInstr_cases (i : Instr) (s : State) :
    exec i s = .next (beginInstr i s) ∨ ∃ job, beginInstr i s = tickJob job s.gen s := by
  cases i with
  | nop | seed _ | adv | hclr | hread _ => exact .inl rfl
  | drop => exact .inr ⟨.drop, rfl⟩
  | advn n =>
    by_cases hn : n = 0
    · subst hn; exact .inl rfl
    · exact .inr ⟨.advn n, if_neg hn⟩
  | sim | simacc =>
    cases hs : s.hist with
    | none => exact .inl (by simp only [exec, execSim, execSimacc, beginInstr, withHist_none hs])
    | some h => exact .inr ⟨_, withHist_some hs⟩

theorem errorRecord_acceptWord (w : CmdWord) {s : State} (hill : s.ill = true) :
    (acceptWord w s).errorRecord = s.errorRecord := by
  cases hd : decode s.histEn w with
  | command i =>
    rw [acceptWord_command hd]
    obtain hexec | ⟨job, htick⟩ := beginInstr_cases i s
    · exact errorRecord_exec hill hexec
    · rw [htick, errorRecord_tickJob]
  | illegal c => rw [acceptWord_illegal hd, raiseIllegal_of_ill hill]

theorem errorRecord_step {s t : State} (hill : s.ill = true) (h : step s = .next t) :
    t.errorRecord = s.errorRecord := by
  obtain ⟨-, -, rfl⟩ | ⟨w, rest, -, -, hrun⟩ | ⟨job, work, -, rfl⟩ := step_cases h
  · rfl
  · exact errorRecord_runWord (s := { s with commands := rest }) hill hrun
  · exact errorRecord_finishJob job work s

/-- A unit not reset since power-up is left as it is by an edge without reset (R233, log entry 3). -/
theorem clockEdge_powerUp {p : Pins} (hr : p.rst = false) {s : State} (hp : s.phase = .powerUp) :
    clockEdge p s = s := by
  simp [clockEdge, hr, hp]

theorem errorRecord_clockEdge {p : Pins} {s : State} (hill : s.ill = true) (hr : p.rst = false) :
    (clockEdge p s).errorRecord = s.errorRecord := by
  cases hp : s.phase with
  | powerUp => rw [clockEdge_powerUp hr hp]
  | executing job work => rw [clockEdge_executing hr hp, errorRecord_tickJob]
  | idle =>
    cases hv : p.cmdValid with
    | true => rw [clockEdge_accept hr hv hp, errorRecord_acceptWord p.cmd hill]
    | false => rw [clockEdge_wait hr hv hp]

/-- Settles O39: a step and an edge without reset keep the whole error record once `ILL = 1`, and a reset edge takes the
unit to the reset state. -/
theorem errorRecordIsStickyUntilReset : Obligations.ErrorRecordIsStickyUntilReset := by
  unfold Obligations.ErrorRecordIsStickyUntilReset
  refine ⟨fun s t hill h => ?_, fun s p hill hr => ?_, fun s w c hill hd => ?_, fun s p hr => ?_⟩
  · rw [← hill, ← errorRecord_eq_iff, errorRecord_step hill h]
  · rw [← hill, ← errorRecord_eq_iff, errorRecord_clockEdge hill hr]
  · rw [runWord_illegal hd, raiseIllegal_of_ill hill]
  · rw [clockEdge_reset hr]
    exact ⟨rfl, rfl, rfl⟩

end Sys2Proof.Machine
end

section
/-! PROOFS. The obligations of 70_reset_and_hazards.md on the reset edge settled here: the reset values (R230), the
command in flight abandoned (R231) and the unit ready afterwards (R232). Before them, what each register reads on a unit
after reset. -/

namespace Sys2Proof.Machine

/-! ### The registers after reset (R230) -/

@[simp] theorem dvec_resetOf (histEn : Bool) : (State.resetOf histEn).dvec = 0 := by
  cases histEn with
  | false | true => rfl

/-- Each of the six counters of a unit with option HIST is zero after reset. -/
@[simp] theorem counter_resetOf_true (k : Fin 6) : (State.resetOf true).counter k = some 0 := by
  have hs : (State.resetOf true).hist = some HistPart.reset := rfl
  rw [counter_of_hist hs, HistPart.reset, Fin.getElem_fin, Vector.getElem_replicate]

@[simp] theorem counter_resetOf_false (k : Fin 6) : (State.resetOf false).counter k = none := rfl

@[simp] theorem resetUnit_gen (s : State) : (resetUnit s).gen = 0 := rfl
@[simp] theorem resetUnit_result (s : State) : (resetUnit s).result = 0 := rfl
@[simp] theorem resetUnit_dbit (s : State) : (resetUnit s).dbit = false := rfl
@[simp] theorem resetUnit_ill (s : State) : (resetUnit s).ill = false := rfl
@[simp] theorem resetUnit_cause (s : State) : (resetUnit s).cause = 0 := rfl
@[simp] theorem resetUnit_illcmd (s : State) : (resetUnit s).illcmd = 0 := rfl
@[simp] theorem resetUnit_phase (s : State) : (resetUnit s).phase = .idle := rfl
@[simp] theorem resetUnit_commands (s : State) : (resetUnit s).commands = s.commands := rfl
@[simp] theorem dvec_resetUnit (s : State) : (resetUnit s).dvec = 0 := dvec_resetOf s.histEn

theorem counter_resetUnit (s : State) (k : Fin 6) : (resetUnit s).counter k = (State.resetOf s.histEn).counter k := rfl

/-- `BUSY` reads 0 of an idle sequencer (R27, R53). -/
theorem busy_of_idle {s : State} (hp : s.phase = .idle) : s.busy = false := by
  simp only [State.busy, hp]

/-- Settles O44: a reset edge is `resetUnit`, and each register is read off it; the counters are there or not with
option HIST, which reset keeps. -/
theorem resetEdgeSetsEveryRegister : Obligations.ResetEdgeSetsEveryRegister := by
  unfold Obligations.ResetEdgeSetsEveryRegister
  intro s p hr t
  have ht : t = resetUnit s := clockEdge_reset hr s
  rw [ht]
  refine ⟨resetUnit_gen s, resetUnit_result s, resetUnit_dbit s, resetUnit_ill s, resetUnit_cause s, resetUnit_illcmd s,
    dvec_resetUnit s, fun hen k => ?_, fun hen k => ?_, busy_of_idle (resetUnit_phase s), resetUnit_phase s,
    histEn_resetUnit s⟩
  · rw [counter_resetUnit, hen, counter_resetOf_true]
  · rw [counter_resetUnit, hen, counter_resetOf_false]

/-! ### The command in flight (R231) -/

@[simp] theorem cmdReady_of_rst (s : State) : cmdReady true s = false := by
  rw [cmdReady, Bool.not_true, Bool.and_false]

/-- Reset does not look at the sequencer: what it leaves is the same whatever command is in flight. -/
theorem resetUnit_with_phase (s : State) (ph : Phase) : resetUnit { s with phase := ph } = resetUnit s := rfl

/-- Apart from the host's list of commands, a reset unit is the reset state. -/
theorem resetUnit_without_commands (s : State) : { resetUnit s with commands := [] } = State.resetOf s.histEn := rfl

/-- Settles O45: a reset edge is `resetUnit` whatever the command port, and `resetUnit` keeps of the unit only its
option HIST and the host's list. -/
theorem resetAbandonsTheCommandInFlight : Obligations.ResetAbandonsTheCommandInFlight := by
  unfold Obligations.ResetAbandonsTheCommandInFlight
  refine ⟨cmdReady_of_rst, fun s p q job work hp hq => ?_, fun s p hp => ?_⟩
  · rw [clockEdge_reset hp, clockEdge_reset hq, resetUnit_with_phase]
  · rw [clockEdge_reset hp, resetUnit_without_commands]

/-! ### The unit after reset (R232) -/

/-- Settles O47: reset leaves the sequencer idle, and the rest is what the laws of the clock say of an idle unit. -/
theorem unitIsReadyAfterReset : Obligations.UnitIsReadyAfterReset := by
  unfold Obligations.UnitIsReadyAfterReset
  intro s p hr t
  have hidle : t.phase = .idle := by
    have ht : t = resetUnit s := clockEdge_reset hr s
    rw [ht, resetUnit_phase]
  exact ⟨busy_of_idle hidle, cmdReady_of_idle hidle, fun q hq hv => clockEdge_wait hq hv hidle,
    fun q hq hv => clockEdge_accept hq hv hidle⟩

end Sys2Proof.Machine
end

section
/-! PROOFS. The obligations on the encoding as a whole (30_encoding.md) settled here: the decoder and the encoder are
inverse to each other (R70 to R74), how many words are legal (R76), and the assembler emits legal words only (R77). -/

namespace Sys2Proof.Machine

/-! ### The commands each operand form answers (R71, R73, R74) -/

theorem packWord_opcode_operand (w : CmdWord) : packWord (opcode w) (operand w) = w := by
  apply BitVec.eq_of_toNat_eq
  have hw := w.isLt
  simp only [packWord_toNat, opcode, operand, BitVec.extractLsb'_toNat, Nat.shiftRight_eq_div_pow]
  omega

theorem decodeNone_eq_command_iff (imm : Imm) (i j : Instr) :
    decodeNone imm i = .command j ↔ imm = 0 ∧ i = j := by
  by_cases h : imm = 0
  · simp [decodeNone, h]
  · simpa only [decodeNone_of_ne_zero h, reduceCtorEq, false_iff] using fun hc => h hc.1

theorem decodeIndex_eq_command_iff (imm : Imm) (j : Instr) :
    decodeIndex imm = .command j ↔
      indexReserved imm = 0 ∧ (indexField imm).toNat < 6 ∧ .hread (indexField imm) = j := by
  by_cases hr : indexReserved imm = 0
  · by_cases hk : 6 ≤ (indexField imm).toNat
    · simp [decodeIndex_of_index_ge hr hk, hk]
    · simp [decodeIndex, hr, hk, Nat.lt_of_not_le hk]
  · simpa only [decodeIndex_of_reserved_ne_zero hr, reduceCtorEq, false_iff] using fun hc => hr hc.1

theorem decodeHist_eq_command_iff (histEn : Bool) (d : Decoded) (j : Instr) :
    decodeHist histEn d = .command j ↔ histEn = true ∧ d = .command j := by
  cases histEn <;> simp

theorem indexField_toNat (imm : Imm) : (indexField imm).toNat = imm.toNat % 8 := by
  simp [indexField, BitVec.extractLsb'_toNat]

theorem indexReserved_toNat (imm : Imm) : (indexReserved imm).toNat = imm.toNat / 8 := by
  have himm := imm.isLt
  simp only [indexReserved, BitVec.extractLsb'_toNat, Nat.shiftRight_eq_div_pow]
  omega

theorem indexReserved_eq_zero_iff (imm : Imm) : indexReserved imm = 0 ↔ imm.toNat < 8 := by
  rw [← BitVec.toNat_inj, indexReserved_toNat]
  exact Nat.div_eq_zero_iff_lt (by decide)

/-- An operand without reserved bits is its index, extended with zeros (R167). -/
theorem setWidth_indexField {imm : Imm} (h : indexReserved imm = 0) : (indexField imm).setWidth 16 = imm := by
  have hlt := (indexReserved_eq_zero_iff imm).mp h
  apply BitVec.eq_of_toNat_eq
  rw [BitVec.toNat_setWidth, indexField_toNat]
  omega

theorem indexField_setWidth (k : CounterIndex) : indexField (k.setWidth 16) = k := by
  revert k; decide

theorem indexReserved_setWidth (k : CounterIndex) : indexReserved (k.setWidth 16) = 0 := by
  revert k; decide

/-! ### Decoder and encoder -/

theorem available_true (i : Instr) : i.available true = true := Bool.or_true _

theorem available_iff_of_needsHist {i : Instr} (hn : i.needsHist = true) (histEn : Bool) :
    i.available histEn = true ↔ histEn = true := by
  simp [Instr.available, hn]

theorem available_of_not_needsHist {i : Instr} (hn : i.needsHist = false) (histEn : Bool) :
    i.available histEn = true := by
  simp [Instr.available, hn]

/-- The word of a well-formed available command passes the test of its operand form. -/
theorem decode_encode {histEn : Bool} {i : Instr} (hwf : i.wellFormed = true)
    (hav : i.available histEn = true) : decode histEn (encode i) = .command i := by
  obtain ⟨hop, himm⟩ : opcode (encode i) = i.op ∧ operand (encode i) = i.imm := encode_fields i
  cases i with
  | nop => rw [decode_of_opcode_nop histEn hop, himm]; rfl
  | seed v => rw [decode_of_opcode_seed histEn hop, himm]; rfl
  | adv => rw [decode_of_opcode_adv histEn hop, himm]; rfl
  | drop => rw [decode_of_opcode_drop histEn hop, himm]; rfl
  | advn n => rw [decode_of_opcode_advn histEn hop, himm]; rfl
  | sim =>
    rw [decode_of_opcode_sim histEn hop, himm, (available_iff_of_needsHist rfl histEn).mp hav]; rfl
  | simacc =>
    rw [decode_of_opcode_simacc histEn hop, himm, (available_iff_of_needsHist rfl histEn).mp hav]; rfl
  | hclr =>
    rw [decode_of_opcode_hclr histEn hop, himm, (available_iff_of_needsHist rfl histEn).mp hav]; rfl
  | hread k =>
    have hk : k.toNat < 6 := of_decide_eq_true hwf
    rw [decode_of_opcode_hread histEn hop, himm, (available_iff_of_needsHist rfl histEn).mp hav,
      decodeHist_true, decodeIndex_eq_command_iff, Instr.imm, indexField_setWidth]
    exact ⟨indexReserved_setWidth k, hk, rfl⟩

/-- A command takes the opcode and the whole operand of the word it is decoded from. -/
theorem fields_of_decode {histEn : Bool} {w : CmdWord} {i : Instr} (h : decode histEn w = .command i) :
    i.wellFormed = true ∧ i.available histEn = true ∧ i.op.toNat = (opcode w).toNat ∧ i.imm = operand w := by
  rw [decode] at h
  split at h
  case h_2 hop | h_5 hop => cases h; exact ⟨rfl, rfl, hop.symm, rfl⟩
  case h_1 hop | h_3 hop | h_4 hop =>
    obtain ⟨himm, rfl⟩ := (decodeNone_eq_command_iff _ _ _).mp h
    exact ⟨rfl, rfl, hop.symm, himm.symm⟩
  case h_6 hop | h_7 hop | h_8 hop =>
    obtain ⟨rfl, hform⟩ := (decodeHist_eq_command_iff _ _ _).mp h
    obtain ⟨himm, rfl⟩ := (decodeNone_eq_command_iff _ _ _).mp hform
    exact ⟨rfl, rfl, hop.symm, himm.symm⟩
  case h_9 hop =>
    obtain ⟨rfl, hform⟩ := (decodeHist_eq_command_iff _ _ _).mp h
    obtain ⟨hreserved, hindex, rfl⟩ := (decodeIndex_eq_command_iff _ _).mp hform
    exact ⟨decide_eq_true hindex, rfl, hop.symm, setWidth_indexField hreserved⟩
  case h_10 => cases h

/-- The command a word decodes to is one the unit has. -/
theorem wellFormed_available_of_decode {histEn : Bool} {w : CmdWord} {i : Instr}
    (h : decode histEn w = .command i) : i.wellFormed = true ∧ i.available histEn = true := by
  obtain ⟨hwf, hav, -, -⟩ := fields_of_decode h
  exact ⟨hwf, hav⟩

theorem encode_of_decode {histEn : Bool} {w : CmdWord} {i : Instr} (h : decode histEn w = .command i) :
    encode i = w := by
  obtain ⟨-, -, hop, himm⟩ := fields_of_decode h
  rw [encode, BitVec.eq_of_toNat_eq hop, himm, packWord_opcode_operand]

/-- Settles O2: the fields of the word are the command's opcode and operand, and the form the opcode selects takes that
operand. -/
theorem decodeOfEncodeIsTheCommand : Obligations.DecodeOfEncodeIsTheCommand := by
  unfold Obligations.DecodeOfEncodeIsTheCommand
  exact fun _ _ => decode_encode

/-- Settles O3: the two fields make up the word, and each is that of the command decoded. -/
theorem decodedWordIsTheEncoding : Obligations.DecodedWordIsTheEncoding := by
  unfold Obligations.DecodedWordIsTheEncoding
  intro histEn w i h
  obtain ⟨hwf, hav⟩ := wellFormed_available_of_decode h
  exact ⟨hwf, hav, encode_of_decode h⟩

/-! ### The number of legal words (R76) -/

/-- How many operands make a legal word with this opcode: the legal ones are those from 0 on. -/
def legalOperands (histEn : Bool) : Nat → Nat
  | 0x0 | 0x2 | 0x3 => 1
  | 0x1 | 0x4 => 65536
  | 0x8 | 0x9 | 0xA => if histEn then 1 else 0
  | 0xB => if histEn then 6 else 0
  | _ => 0

theorem isLegal_eq_false_iff (histEn : Bool) (w : CmdWord) :
    isLegal histEn w = false ↔ ∃ c, decode histEn w = .illegal c := by
  cases hd : decode histEn w <;> simp [isLegal, hd]

/-- The index form rejects the operands from 6 on: those from 8 on for their reserved bits, 6 and 7 for their index. -/
theorem exists_decodeIndex_eq_illegal_iff (imm : Imm) : (∃ c, decodeIndex imm = .illegal c) ↔ 6 ≤ imm.toNat := by
  simp only [decodeIndex_eq_illegal_iff, exists_or, exists_and_left, exists_eq', and_true, ne_eq,
    indexReserved_eq_zero_iff, indexField_toNat]
  omega

theorem exists_decodeNone_eq_illegal_iff (imm : Imm) (i : Instr) :
    (∃ c, decodeNone imm i = .illegal c) ↔ 1 ≤ imm.toNat := by
  simp only [decodeNone_eq_illegal_iff, exists_and_left, exists_eq', and_true, ne_eq, ← BitVec.toNat_inj]
  exact Nat.one_le_iff_ne_zero.symm

theorem exists_decodeHist_eq_illegal_iff (histEn : Bool) (d : Decoded) :
    (∃ c, decodeHist histEn d = .illegal c) ↔ histEn = false ∨ ∃ c, d = .illegal c := by
  cases histEn <;> simp

theorem isLegal_eq_false_iff_legalOperands_le (histEn : Bool) (w : CmdWord) :
    isLegal histEn w = false ↔ legalOperands histEn (opcode w).toNat ≤ (operand w).toNat := by
  have himm := (operand w).isLt
  rw [isLegal_eq_false_iff]
  generalize hopcode : (opcode w).toNat = op
  obtain ⟨hop, hd⟩ | ⟨hop, i, hd⟩ | ⟨hop, i, hd⟩ | ⟨hop, i, hd⟩ | ⟨rfl, hd⟩ := decode_by_form histEn w hopcode <;>
    rw [hd]
  · simp only [List.mem_cons, List.not_mem_nil, or_false] at hop
    rcases hop with rfl | rfl | rfl | rfl | rfl | rfl | rfl <;> simp [legalOperands]
  · simp only [List.mem_cons, List.not_mem_nil, or_false] at hop
    rcases hop with rfl | rfl <;> simpa [legalOperands] using himm
  · simp only [List.mem_cons, List.not_mem_nil, or_false] at hop
    rw [exists_decodeNone_eq_illegal_iff]
    rcases hop with rfl | rfl | rfl <;> rfl
  · simp only [List.mem_cons, List.not_mem_nil, or_false] at hop
    rw [exists_decodeHist_eq_illegal_iff, exists_decodeNone_eq_illegal_iff]
    rcases hop with rfl | rfl | rfl <;> cases histEn <;> simp [legalOperands]
  · rw [exists_decodeHist_eq_illegal_iff, exists_decodeIndex_eq_illegal_iff]
    cases histEn <;> simp [legalOperands]

/-- The words with one opcode are a row of 2^16 words, counted by their operand. -/
theorem fields_ofNat {op imm : Nat} (hop : op < 16) (himm : imm < 65536) :
    (opcode (BitVec.ofNat 20 (op * 65536 + imm))).toNat = op ∧
    (operand (BitVec.ofNat 20 (op * 65536 + imm))).toNat = imm := by
  simp only [opcode, operand, BitVec.extractLsb'_toNat, BitVec.toNat_ofNat, Nat.shiftRight_eq_div_pow]
  omega

theorem count_illegal (histEn : Bool) :
    Nat.count (fun n => isLegal histEn (BitVec.ofNat 20 n) = false) (2 ^ 20) =
      ∑ op ∈ Finset.range 16, (65536 - legalOperands histEn op) := by
  refine (count_mul_eq_sum_rows _ 65536 16).trans (Finset.sum_congr rfl fun op hop => ?_)
  refine count_eq_sub_of_iff_le fun imm himm => ?_
  obtain ⟨hopcode, hoperand⟩ := fields_ofNat (Finset.mem_range.mp hop) himm
  rw [isLegal_eq_false_iff_legalOperands_le, hopcode, hoperand]

theorem count_legal (histEn : Bool) :
    Nat.count (fun n => isLegal histEn (BitVec.ofNat 20 n) = true) (2 ^ 20) =
      2 ^ 20 - ∑ op ∈ Finset.range 16, (65536 - legalOperands histEn op) := by
  rw [← count_illegal]
  exact count_eq_sub_of_iff_not (fun _ => by rw [Bool.not_eq_false]) _

/-- Settles O5: in the row of an opcode the illegal words are those from `legalOperands` on, and the total is the sum
over the sixteen rows. -/
theorem numberOfLegalWords : Obligations.NumberOfLegalWords := by
  unfold Obligations.NumberOfLegalWords
  rw [count_legal, count_illegal, count_legal, count_illegal]
  decide

/-! ### The assembler (R77, R78) -/

/-- What the assembler may emit for a line: commands, and each with an operand in its range. -/
def EmitsWellFormed (is : List Instr) : Prop := is ≠ [] ∧ ∀ i ∈ is, i.wellFormed = true

theorem emitsWellFormed_singleton {i : Instr} (h : i.wellFormed = true) : EmitsWellFormed [i] :=
  ⟨List.cons_ne_nil _ _, by simpa using h⟩

theorem emitsWellFormed_expand (p : Pseudo) : EmitsWellFormed p.expand := by
  cases p <;> simp [EmitsWellFormed, Pseudo.expand, Instr.wellFormed]

theorem bareMnemonic_emitsWellFormed {m : List Char} {is : List Instr} (h : bareMnemonic m = some is) :
    EmitsWellFormed is := by
  unfold bareMnemonic at h
  split_ifs at h <;> cases h
  · exact emitsWellFormed_singleton rfl
  · exact emitsWellFormed_singleton rfl
  · exact emitsWellFormed_singleton rfl
  · exact emitsWellFormed_singleton rfl
  · exact emitsWellFormed_singleton rfl
  · exact emitsWellFormed_singleton rfl
  · exact emitsWellFormed_expand .rdst
  · exact emitsWellFormed_expand .burn

theorem wellFormed_hread_ofNat {v : Nat} (hv : v < 6) : (Instr.hread (BitVec.ofNat 3 v)).wellFormed = true := by
  rw [Instr.wellFormed, BitVec.toNat_ofNat, Nat.mod_eq_of_lt (by omega)]
  exact decide_eq_true hv

theorem operandMnemonic_emitsWellFormed {m : List Char} {v : Nat} {is : List Instr}
    (h : operandMnemonic m v = some is) : EmitsWellFormed is := by
  unfold operandMnemonic at h
  split_ifs at h with _ hv _ hv _ hv _ hv _ hv <;> cases h
  · exact emitsWellFormed_singleton rfl
  · exact emitsWellFormed_singleton rfl
  · exact emitsWellFormed_singleton (wellFormed_hread_ofNat hv)
  · exact emitsWellFormed_expand (.seedSim _)
  · exact emitsWellFormed_expand (.seedAcc _)

theorem parseLine_emitsWellFormed {line : List Char} {is : List Instr} (h : parseLine line = some is) :
    EmitsWellFormed is := by
  unfold parseLine at h
  split at h
  · exact bareMnemonic_emitsWellFormed h
  · split at h
    · cases h
    · exact operandMnemonic_emitsWellFormed h
  · cases h

/-- Settles O6: every mnemonic emits well-formed commands, and with option HIST every well-formed command is legal. -/
theorem assembledWordsAreLegalCommands : Obligations.AssembledWordsAreLegalCommands := by
  unfold Obligations.AssembledWordsAreLegalCommands
  intro line ws h
  obtain ⟨is, hparse, rfl⟩ := Option.map_eq_some_iff.mp h
  obtain ⟨hne, hwf⟩ := parseLine_emitsWellFormed hparse
  exact ⟨is, rfl, hne, fun i hi => ⟨hwf i hi, decode_encode (hwf i hi) (available_true i)⟩⟩

end Sys2Proof.Machine
end

section
/-! PROOFS. The obligations on the datapath and on the advancing commands together settled here: the datapath on wires
(R101), the low byte of the next state (R107), fixed points and preimages of N (R108), ADVN against ADV (R118), the
advances of one protocol run (R154), and SIM against the protocol from primitives (R151). -/

namespace Sys2Proof.Machine

/-! ### The datapath on wires (R101) -/

/-- Settles O9: no wire loses a bit, so stage by stage each holds the signal of the same name, except that the last
sum is narrowed to 16 bits, as `N` is. -/
theorem fixedWidthDatapathComputesN : Obligations.FixedWidthDatapathComputesN := by
  unfold Obligations.FixedWidthDatapathComputesN
  intro s
  have hlow := lowByte_le s
  have hhigh := highByte_le s
  have hsh := sh_eq s
  have hcombined := combined_eq_products s
  have hr1 := r1_le s
  have hr2 := r2_le s
  unfold nWires
  extract_lets r1w p2w r2w shw combinedw cw sumw
  have hr1w : r1w.toNat = r1 s := by
    simp only [r1w, BitVec.toNat_mul, BitVec.toNat_setWidth, BitVec.ofNat_eq_ofNat, BitVec.toNat_ofNat, r1_eq_lowByte]
    omega
  have hr2w : r2w.toNat = r2 s := by
    simp only [r2w, p2w, BitVec.toNat_mul, BitVec.toNat_setWidth, BitVec.ofNat_eq_ofNat, BitVec.toNat_ofNat,
      r2_eq_highByte]
    omega
  have hshw : shw.toNat = sh s := by
    simp only [shw, BitVec.toNat_shiftLeft, BitVec.toNat_setWidth, hr2w, Nat.shiftLeft_eq]
    omega
  have hcombinedw : combinedw.toNat = combined s := by
    simp only [combinedw, BitVec.toNat_add, BitVec.toNat_setWidth, BitVec.ofNat_eq_ofNat, BitVec.toNat_ofNat, hr1w,
      hshw]
    omega
  have hcw : cw.toNat = foldCarry s := by
    simp only [cw, BitVec.extractLsb'_toNat, hcombinedw, Nat.shiftRight_eq_div_pow, foldCarry]
    omega
  apply BitVec.eq_of_toNat_eq
  have hcarry := foldCarry_le_one s
  simp only [sumw, BitVec.toNat_add, BitVec.toNat_setWidth, BitVec.ofNat_eq_ofNat, BitVec.toNat_ofNat, hcw, hcombinedw,
    N_toNat]
  omega

/-! ### The next state (R107, R108) -/

/-- Settles O12: it is `lowByte_N`. -/
theorem lowByteOfTheNextState : Obligations.LowByteOfTheNextState := by
  unfold Obligations.LowByteOfTheNextState
  exact lowByte_N

theorem N_toNat_closed (s : Gen) : (N s).toNat = (5 * s.toNat + 0x111 + foldCarry s) % 2 ^ 16 := by
  rw [closedFormOfN s, BitVec.toNat_ofNat]

/-- A fixed point would make `4 * s + 0x111 + c` a multiple of 2^16, but modulo 4 it is 1 or 2. -/
theorem N_ne_self (s : Gen) : N s ≠ s := by
  intro h
  have hclosed := N_toNat_closed s
  have hcarry := foldCarry_le_one s
  rw [h] at hclosed
  omega

/-- 5 is invertible modulo 2^16, so with the carry given the image tells the state. -/
theorem eq_of_N_eq_of_foldCarry_eq {a b : Gen} (hN : N a = N b) (hc : foldCarry a = foldCarry b) : a = b := by
  have ha := N_toNat_closed a
  have hb := N_toNat_closed b
  have := a.isLt
  have := b.isLt
  rw [hN, hc] at ha
  apply BitVec.eq_of_toNat_eq
  omega

/-- Settles O13: of three states two have the same carry, and where these have one image they are one state. -/
theorem noFixedPointAndAtMostTwoPreimages : Obligations.NoFixedPointAndAtMostTwoPreimages := by
  unfold Obligations.NoFixedPointAndAtMostTwoPreimages
  refine ⟨N_ne_self, fun a b c hab hbc => ?_, by decide, by decide⟩
  have hcarries : foldCarry a = foldCarry b ∨ foldCarry b = foldCarry c ∨ foldCarry a = foldCarry c := by
    have := foldCarry_le_one a
    have := foldCarry_le_one b
    have := foldCarry_le_one c
    omega
  obtain hc | hc | hc := hcarries
  · exact .inl (eq_of_N_eq_of_foldCarry_eq hab hc)
  · exact .inr (.inl (eq_of_N_eq_of_foldCarry_eq hbc hc))
  · exact .inr (.inr (eq_of_N_eq_of_foldCarry_eq (hab.trans hbc) hc))

/-! ### ADVN and repeated ADV (R118) -/

/-- Each ADV writes STATE and RESULT again, so only the last one's RESULT is left. -/
theorem execAll_replicate_adv (n : Nat) (s : State) :
    execAll (List.replicate (n + 1) .adv) s = .next (retireAdvance (N^[n + 1] s.gen) s) := by
  induction n generalizing s with
  | zero => exact execAll_singleton (exec_adv s)
  | succ n ih => rw [List.replicate_succ, execAll_cons (exec_adv s), ih]; rfl

/-- Settles O33: for n = 0 no ADV runs and ADVN leaves STATE; otherwise both retire the state after n ticks. -/
theorem advnEqualsRepeatedAdv : Obligations.AdvnEqualsRepeatedAdv := by
  unfold Obligations.AdvnEqualsRepeatedAdv
  intro n s
  cases hn : n.toNat with
  | zero => exact ⟨_, s, exec_advn n s, rfl, by rw [hn]; rfl, fun h => absurd h (by decide)⟩
  | succ k => exact ⟨_, _, exec_advn n s, execAll_replicate_adv k s, by rw [hn], fun _ => by rw [hn]⟩

/-! ### The advances of the protocol (R154) -/

theorem outcome_advances (s : Gen) :
    let a := drop (N s)
    let b := drop (N a.state)
    let c := drop (N b.state)
    let d := drop (N c.state)
    let e := drop (N^[176] d.state)
    (outcome s).advances = 180 + a.advances + b.advances + c.advances + d.advances + e.advances := by
  simp only [outcome_eq_runs, runDrop, runAdvances, runPair_state, runPair_advances, advances_eq_iterate]
  omega

theorem protocol_advances_bounds {n a b c d e : Nat} (hn : n = 180 + a + b + c + d + e) (ha : a = 1 ∨ a = 2)
    (hb : b = 1 ∨ b = 2) (hc : c = 1 ∨ c = 2) (hd : d = 1 ∨ d = 2) (he : e = 1 ∨ e = 2) : 185 ≤ n ∧ n ≤ 190 := by
  omega

theorem outcome_advances_bounds (s : Gen) : 185 ≤ (outcome s).advances ∧ (outcome s).advances ≤ 190 :=
  protocol_advances_bounds (outcome_advances s) (drop_advances_eq_one_or_two _) (drop_advances_eq_one_or_two _)
    (drop_advances_eq_one_or_two _) (drop_advances_eq_one_or_two _) (drop_advances_eq_one_or_two _)

/-- Settles O26: four advances come before the pairs' drops and 176 before the last one, and each of the five drops
takes one or two. -/
theorem protocolTakes185To190Advances : Obligations.ProtocolTakes185To190Advances := by
  unfold Obligations.ProtocolTakes185To190Advances
  exact fun s => ⟨outcome_advances s, outcome_advances_bounds s⟩

/-! ### The protocol from primitives (R151) -/

/-- The registers DROP writes stand as a DROP from generator state `g` leaves them (R133). -/
def LeavesDropOf (g : Gen) (t : State) : Prop :=
  t.gen = (drop g).state ∧ t.dbit = (drop g).bit ∧ t.result = resultOfBit (drop g).bit

theorem leavesDropOf_retireDrop (g : Gen) (s : State) :
    LeavesDropOf g (retireDrop (drop g).state (drop g).bit s) := ⟨rfl, rfl, rfl⟩

theorem execAll_adv_drop (s : State) : ∃ t, execAll [.adv, .drop] s = .next t ∧ LeavesDropOf (N s.gen) t := by
  rw [execAll_cons (exec_adv s)]
  exact ⟨_, execAll_singleton (exec_drop _), leavesDropOf_retireDrop _ _⟩

theorem execAll_burn_drop (s : State) :
    ∃ t, execAll [.advn 176, .drop] s = .next t ∧ LeavesDropOf (N^[176] s.gen) t := by
  rw [execAll_cons (exec_advn 176 s)]
  exact ⟨_, execAll_singleton (exec_drop _), leavesDropOf_retireDrop _ _⟩

/-- The ones counter's value is the sum of the values DROP returns for the five bits. -/
theorem resultOfOutcome_assignBits (a b c d e : Bool) :
    resultOfOutcome (onesCount (assignBits a b c d e)) =
      resultOfBit a + resultOfBit b + resultOfBit c + resultOfBit d + resultOfBit e := by
  revert a b c d e; decide

/-- The drop bits stand in DVEC in protocol order, the first in bit 0 (R152). -/
theorem assignBits_eq_append (a b c d e : Bool) :
    assignBits a b c d e =
      BitVec.ofBool e ++ BitVec.ofBool d ++ BitVec.ofBool c ++ BitVec.ofBool b ++ BitVec.ofBool a := by
  revert a b c d e; decide

/-- SIM and SIMACC write the five bits to DVEC (R158, R161). -/
theorem dvec_retireOutcome (a : Bool) (g : Gen) (dv : DropVec) (h : HistPart) (s : State) :
    (retireOutcome a g dv h s).dvec = dv := by
  cases a <;> rfl

/-- Settles O32: the commands run the protocol's own advances and drops from the same states, so what is left is that
the five bits are added and put side by side in the same order. -/
theorem simEqualsTheProtocolFromPrimitives : Obligations.SimEqualsTheProtocolFromPrimitives := by
  unfold Obligations.SimEqualsTheProtocolFromPrimitives
  intro s hen
  obtain ⟨h, hs⟩ := histEn_eq_true.mp hen
  obtain ⟨a, ha, hag, hab, har⟩ := execAll_adv_drop s
  obtain ⟨b, hb, hbg, hbb, hbr⟩ := execAll_adv_drop a
  obtain ⟨c, hc, hcg, hcb, hcr⟩ := execAll_adv_drop b
  obtain ⟨d, hd, hdg, hdb, hdr⟩ := execAll_adv_drop c
  obtain ⟨e, he, heg, heb, her⟩ := execAll_burn_drop d
  obtain ⟨hstate, hdv⟩ := outcome_state_dv s.gen
  refine ⟨a, b, c, d, e, _, ha, hb, hc, hd, he, exec_sim hs, ?_, ?_, ?_⟩
  · rw [retireOutcome_gen, hstate, heg, hdg, hcg, hbg, hag]
  · rw [retireOutcome_result, hdv, resultOfOutcome_assignBits, har, hbr, hcr, hdr, her, hdg, hcg, hbg, hag]
  · rw [dvec_retireOutcome, hdv, assignBits_eq_append, hab, hbb, hcb, hdb, heb, hdg, hcg, hbg, hag]

end Sys2Proof.Machine
end

section
/-! PROOFS. The obligations on every command at once settled here: the command a unit turns away (R73, R201), the
registers each command writes (R20), what it reads (R100, R134, R155), and the idempotent commands (R57). Before them,
what `exec` does of each command, said once. -/

namespace Sys2Proof.Machine

/-! ### What a command does -/

/-- A unit without option HIST turns its commands away (R73). -/
theorem exec_of_needsHist {i : Instr} {s : State} (hn : i.needsHist = true) (hs : s.hist = none) :
    exec i s = .next (raiseIllegal .reservedOpcode (encode i) s) := by
  cases i with
  | nop | seed _ | adv | drop | advn _ => cases hn
  | sim | simacc | hclr | hread _ => exact congrArg Host.Outcome.next (withHist_none hs)

/-- HREAD of 6 or 7 is turned away (R167, R201). -/
theorem exec_hread_of_ge {k : CounterIndex} {s : State} {h : HistPart} (hs : s.hist = some h) (hk : 6 ≤ k.toNat) :
    exec (.hread k) s = .next (raiseIllegal .indexOutOfRange (encode (.hread k)) s) := by
  simp only [exec, execHread, withHist_some hs, counterSlot_of_ge hk]

/-- Settles O31: both are turned away by `raiseIllegal`, for the word of the command itself. -/
theorem unavailableCommandsRecordTheirWord : Obligations.UnavailableCommandsRecordTheirWord := by
  unfold Obligations.UnavailableCommandsRecordTheirWord
  exact ⟨fun i s => exec_of_needsHist, fun k s h => exec_hread_of_ge⟩

/-- The retirement of a command the unit has: all its writes. -/
inductive CommandRetires (s : State) : Instr → State → Prop where
  | nop : CommandRetires s .nop s
  | seed (v : Imm) : CommandRetires s (.seed v) (loadGen v s)
  | adv : CommandRetires s .adv (retireAdvance (N s.gen) s)
  | drop {d : DropResult} (hd : Machine.drop s.gen = d) : CommandRetires s .drop (retireDrop d.state d.bit s)
  | advn (n : Imm) : CommandRetires s (.advn n) (retireAdvance (N^[n.toNat] s.gen) s)
  | sim {h : HistPart} (hs : s.hist = some h) {r : ProtocolRun} (hr : outcome s.gen = r) :
      CommandRetires s .sim (retireOutcome false r.state r.dv h s)
  | simacc {h : HistPart} (hs : s.hist = some h) {r : ProtocolRun} (hr : outcome s.gen = r) :
      CommandRetires s .simacc (retireOutcome true r.state r.dv h s)
  | hclr {h : HistPart} (hs : s.hist = some h) : CommandRetires s .hclr (clearCounters h s)
  | hread {h : HistPart} (hs : s.hist = some h) {k : CounterIndex} (hk : k.toNat < 6) :
      CommandRetires s (.hread k) (readCounter h ⟨k.toNat, hk⟩ s)

/-- The unit has option HIST if it has a command of it. -/
theorem exists_hist_of_available {i : Instr} {s : State} (hn : i.needsHist = true)
    (hav : i.available s.histEn = true) : ∃ h, s.hist = some h :=
  histEn_eq_true.mp ((available_iff_of_needsHist hn s.histEn).mp hav)

/-- A well-formed available command retires. -/
theorem commandRetires_of_exec {i : Instr} {s t : State} (h : exec i s = .next t) (hwf : i.wellFormed = true)
    (hav : i.available s.histEn = true) : CommandRetires s i t := by
  cases i with
  | nop => cases h; exact .nop
  | seed v => cases h; exact .seed v
  | adv => cases (exec_adv s).symm.trans h; exact .adv
  | drop => cases (exec_drop s).symm.trans h; exact .drop rfl
  | advn n => cases (exec_advn n s).symm.trans h; exact .advn n
  | sim =>
    obtain ⟨hp, hs⟩ := exists_hist_of_available rfl hav
    cases (exec_sim hs).symm.trans h; exact .sim hs rfl
  | simacc =>
    obtain ⟨hp, hs⟩ := exists_hist_of_available rfl hav
    cases (exec_simacc hs).symm.trans h; exact .simacc hs rfl
  | hclr =>
    obtain ⟨hp, hs⟩ := exists_hist_of_available rfl hav
    cases (exec_hclr hs).symm.trans h; exact .hclr hs
  | hread k =>
    obtain ⟨hp, hs⟩ := exists_hist_of_available rfl hav
    have hk : k.toNat < 6 := of_decide_eq_true hwf
    cases (exec_hread hs hk).symm.trans h; exact .hread hs hk

/-- Any other command is turned away. -/
theorem exists_raiseIllegal_of_exec {i : Instr} {s t : State} (h : exec i s = .next t)
    (hi : ¬ (i.wellFormed = true ∧ i.available s.histEn = true)) : ∃ c, t = raiseIllegal c (encode i) s := by
  cases hn : i.needsHist with
  | false =>
    refine absurd ⟨?_, available_of_not_needsHist hn _⟩ hi
    cases i with
    | nop | seed _ | adv | drop | advn _ => rfl
    | sim | simacc | hclr | hread _ => cases hn
  | true =>
    cases hs : s.hist with
    | none => cases (exec_of_needsHist hn hs).symm.trans h; exact ⟨_, rfl⟩
    | some hp =>
      have hav : i.available s.histEn = true :=
        (available_iff_of_needsHist hn _).mpr (histEn_eq_true.mpr ⟨hp, hs⟩)
      cases i with
      | nop | seed _ | adv | drop | advn _ => cases hn
      | sim | simacc | hclr => exact absurd ⟨rfl, hav⟩ hi
      | hread k =>
        have hk : 6 ≤ k.toNat := Nat.le_of_not_lt fun hk => hi ⟨decide_eq_true hk, hav⟩
        cases (exec_hread_of_ge hs hk).symm.trans h
        exact ⟨_, rfl⟩

/-- What a command does to the unit: it retires, or it is turned away as a command the unit does not have. -/
theorem exec_cases {i : Instr} {s t : State} (h : exec i s = .next t) :
    CommandRetires s i t ∨
    (¬ (i.wellFormed = true ∧ i.available s.histEn = true) ∧ ∃ c, t = raiseIllegal c (encode i) s) := by
  by_cases hi : i.wellFormed = true ∧ i.available s.histEn = true
  · obtain ⟨hwf, hav⟩ := hi
    exact .inl (commandRetires_of_exec h hwf hav)
  · exact .inr ⟨hi, exists_raiseIllegal_of_exec h hi⟩

/-! ### What a command leaves as it was (R20) -/

theorem histEn_exec {i : Instr} {s t : State} (h : exec i s = .next t) : t.histEn = s.histEn := by
  obtain hretires | ⟨-, c, rfl⟩ := exec_cases h
  · cases hretires with
    | sim hs _ | simacc hs _ | hclr hs => simp [histEn_eq_true.mpr ⟨_, hs⟩]
    | _ => simp
  · simp

theorem phase_exec {i : Instr} {s t : State} (h : exec i s = .next t) : t.phase = s.phase := by
  obtain hretires | ⟨-, c, rfl⟩ := exec_cases h
  · cases hretires <;> simp
  · simp

theorem commands_exec {i : Instr} {s t : State} (h : exec i s = .next t) : t.commands = s.commands := by
  obtain hretires | ⟨-, c, rfl⟩ := exec_cases h
  · cases hretires <;> simp
  · simp

theorem errorRecord_exec_of_available {i : Instr} {s t : State} (h : exec i s = .next t)
    (hwf : i.wellFormed = true) (hav : i.available s.histEn = true) : t.errorRecord = s.errorRecord := by
  cases commandRetires_of_exec h hwf hav <;> simp [State.errorRecord]

theorem gen_exec {i : Instr} {s t : State} (h : exec i s = .next t)
    (hi : i ∈ [.nop, .hclr] ∨ ∃ k, i = .hread k) : t.gen = s.gen := by
  obtain hretires | ⟨-, c, rfl⟩ := exec_cases h
  · cases hretires with
    | nop | hclr _ | hread _ _ => rfl
    | seed _ | adv | drop _ | advn _ | sim _ _ | simacc _ _ => simp at hi
  · simp

theorem result_exec {i : Instr} {s t : State} (h : exec i s = .next t)
    (hi : i ∈ [.nop, .hclr] ∨ ∃ v, i = .seed v) : t.result = s.result := by
  obtain hretires | ⟨-, c, rfl⟩ := exec_cases h
  · cases hretires with
    | nop | hclr _ | seed _ => rfl
    | adv | drop _ | advn _ | sim _ _ | simacc _ _ | hread _ _ => simp at hi
  · simp

theorem dbit_exec {i : Instr} {s t : State} (h : exec i s = .next t) (hi : i ≠ .drop) : t.dbit = s.dbit := by
  obtain hretires | ⟨-, c, rfl⟩ := exec_cases h
  · cases hretires with
    | drop _ => exact absurd rfl hi
    | _ => simp
  · simp

theorem dvec_of_hist {s : State} {h : HistPart} (hs : s.hist = some h) : s.dvec = h.dvec := by
  simp only [State.dvec, hs]

theorem dvec_exec {i : Instr} {s t : State} (h : exec i s = .next t) (hsim : i ≠ .sim) (hsimacc : i ≠ .simacc) :
    t.dvec = s.dvec := by
  obtain hretires | ⟨-, c, rfl⟩ := exec_cases h
  · cases hretires with
    | sim _ _ => exact absurd rfl hsim
    | simacc _ _ => exact absurd rfl hsimacc
    | hclr hs => exact (dvec_of_hist hs).symm
    | nop | seed _ | adv | drop _ | advn _ | hread _ _ => rfl
  · rfl

theorem counter_exec {i : Instr} {s t : State} (h : exec i s = .next t) (hsimacc : i ≠ .simacc) (hclr : i ≠ .hclr)
    (k : Fin 6) : t.counter k = s.counter k := by
  obtain hretires | ⟨-, c, rfl⟩ := exec_cases h
  · cases hretires with
    | simacc _ _ => exact absurd rfl hsimacc
    | hclr _ => exact absurd rfl hclr
    | sim hs _ => exact (counter_retireOutcome_false _ _ _ _ k).trans (counter_of_hist hs k).symm
    | nop | seed _ | adv | drop _ | advn _ | hread _ _ => rfl
  · rfl

/-- Settles O35: register by register, from what each command writes when it retires. -/
theorem commandsWriteOnlyTheirRegisters : Obligations.CommandsWriteOnlyTheirRegisters := by
  unfold Obligations.CommandsWriteOnlyTheirRegisters
  exact fun i s t h => ⟨gen_exec h, result_exec h, dbit_exec h, dvec_exec h, counter_exec h,
    fun hwf hav => (errorRecord_eq_iff s t).mp (errorRecord_exec_of_available h hwf hav),
    histEn_exec h, phase_exec h, commands_exec h⟩

/-! ### What a command reads (R100, R134, R155) -/

/-- The values that two runs of a command agree on when they start from the same STATE. -/
def AgreeAfter (i : Instr) (t t' : State) : Prop :=
  t.gen = t'.gen ∧
  (i ∈ [.adv, .drop, .sim, .simacc] ∨ (∃ n, i = .advn n) → t.result = t'.result) ∧
  (i = .drop → t.dbit = t'.dbit) ∧
  (i ∈ [.sim, .simacc] → t.dvec = t'.dvec)

theorem agreeAfter_retireOutcome (a : Bool) (i : Instr) (r : ProtocolRun) (h h' : HistPart) (s s' : State)
    (hi : i ≠ .drop) : AgreeAfter i (retireOutcome a r.state r.dv h s) (retireOutcome a r.state r.dv h' s') :=
  ⟨rfl, fun _ => rfl, fun hdrop => absurd hdrop hi, fun _ => by rw [dvec_retireOutcome, dvec_retireOutcome]⟩

/-- HREAD returns a counter, but it leaves STATE. -/
theorem agreeAfter_hread {k : CounterIndex} {s s' t t' : State} (hgen : s.gen = s'.gen)
    (h : exec (.hread k) s = .next t) (h' : exec (.hread k) s' = .next t') : AgreeAfter (.hread k) t t' := by
  refine ⟨?_, by simp, by simp, by simp⟩
  rw [gen_exec h (.inr ⟨k, rfl⟩), gen_exec h' (.inr ⟨k, rfl⟩), hgen]

theorem agreeAfter_of_commandRetires {i : Instr} {s s' t t' : State} (hgen : s.gen = s'.gen)
    (h : CommandRetires s i t) (h' : CommandRetires s' i t') (hi : ∀ k, i ≠ .hread k) : AgreeAfter i t t' := by
  cases h with
  | nop => cases h'; exact ⟨hgen, by simp, by simp, by simp⟩
  | seed v => cases h'; exact ⟨rfl, by simp, by simp, by simp⟩
  | adv => cases h'; rw [hgen]; exact ⟨rfl, fun _ => rfl, by simp, by simp⟩
  | advn n => cases h'; rw [hgen]; exact ⟨rfl, fun _ => rfl, by simp, by simp⟩
  | drop hd =>
    cases h' with
    | drop hd' =>
      obtain rfl := hd.symm.trans (hgen ▸ hd')
      exact ⟨rfl, fun _ => rfl, fun _ => rfl, by simp⟩
  | sim hs hr =>
    cases h' with
    | sim hs' hr' =>
      obtain rfl := hr.symm.trans (hgen ▸ hr')
      exact agreeAfter_retireOutcome false .sim _ _ _ s s' Instr.noConfusion
  | simacc hs hr =>
    cases h' with
    | simacc hs' hr' =>
      obtain rfl := hr.symm.trans (hgen ▸ hr')
      exact agreeAfter_retireOutcome true .simacc _ _ _ s s' Instr.noConfusion
  | hclr hs => cases h'; exact ⟨hgen, by simp, by simp, by simp⟩
  | hread hs hk => exact absurd rfl (hi _)

/-- Only HREAD has a term that is not well formed. -/
theorem wellFormed_of_ne_hread {i : Instr} (hi : ∀ k, i ≠ .hread k) : i.wellFormed = true := by
  cases i with
  | hread k => exact absurd rfl (hi k)
  | nop | seed _ | adv | drop | advn _ | sim | simacc | hclr => rfl

/-- Settles O36: HREAD leaves STATE; any other available command retires on both units, and what it writes of the four
values is computed from STATE. -/
theorem stateAndAdvancingResultsDependOnStateAlone : Obligations.StateAndAdvancingResultsDependOnStateAlone := by
  unfold Obligations.StateAndAdvancingResultsDependOnStateAlone
  intro i s s' t t' hgen hen hav h h'
  by_cases hi : ∃ k, i = .hread k
  · obtain ⟨k, rfl⟩ := hi
    exact agreeAfter_hread hgen h h'
  · have hne : ∀ k, i ≠ .hread k := fun k hk => hi ⟨k, hk⟩
    have hwf := wellFormed_of_ne_hread hne
    exact agreeAfter_of_commandRetires hgen (commandRetires_of_exec h hwf hav)
      (commandRetires_of_exec h' hwf (hen ▸ hav)) hne

/-! ### Idempotent commands (R57) -/

/-- Two commands, the second of which changes nothing more. -/
theorem execAll_pair {i : Instr} {s t : State} (h : exec i s = .next t) (ht : exec i t = .next t) :
    execAll [i, i] s = exec i s := by
  rw [execAll_cons h, execAll_singleton ht, h]

/-- A command turned away for what the unit has or for its own operand is turned away again, and the second time it
records nothing. -/
theorem execAll_pair_of_turnedAway {i : Instr} {s : State} {c : IllegalCause}
    (h : ∀ t : State, t.hist = s.hist → exec i t = .next (raiseIllegal c (encode i) t)) :
    execAll [i, i] s = exec i s := by
  refine execAll_pair (h s rfl) ?_
  rw [h _ (raiseIllegal_hist _ _ _), raiseIllegal_of_ill (raiseIllegal_ill _ _ _)]

theorem execAll_pair_hclr (s : State) : execAll [.hclr, .hclr] s = exec .hclr s := by
  cases hs : s.hist with
  | none => exact execAll_pair_of_turnedAway fun _ ht => exec_of_needsHist rfl (ht.trans hs)
  | some h => exact execAll_pair (exec_hclr hs) (exec_hclr (h := h.clear) rfl)

theorem execAll_pair_hread (k : CounterIndex) (s : State) : execAll [.hread k, .hread k] s = exec (.hread k) s := by
  cases hs : s.hist with
  | none => exact execAll_pair_of_turnedAway fun _ ht => exec_of_needsHist rfl (ht.trans hs)
  | some h =>
    by_cases hk : k.toNat < 6
    · exact execAll_pair (exec_hread hs hk) (exec_hread (s := readCounter h ⟨k.toNat, hk⟩ s) hs hk)
    · exact execAll_pair_of_turnedAway fun t ht => exec_hread_of_ge (ht.trans hs) (Nat.le_of_not_lt hk)

/-- Settles O37: none of them reads a register it writes, and one turned away is turned away again. -/
theorem idempotentCommands : Obligations.IdempotentCommands := by
  unfold Obligations.IdempotentCommands
  exact ⟨fun v s => execAll_pair (exec_seed v s) (exec_seed v _), execAll_pair_hclr,
    fun s => execAll_pair (exec_nop s) (exec_nop s), execAll_pair_hread,
    fun k s t j h => counter_exec h Instr.noConfusion Instr.noConfusion j⟩

end Sys2Proof.Machine
end

section
/-! PROOFS. The obligations on a step at the transaction level (R245) settled here: which command a step runs (R243),
where it runs none (R214, R233), and what the reset state shows (95_test_vectors.md §7). -/

namespace Sys2Proof.Machine

/-! ### The step of an idle unit (R243, R245) -/

theorem step_wait {s : State} (hp : s.phase = .idle) (hc : s.commands = []) : step s = .next s := by
  simp only [step, stepUnit, hp, stepIdle, nextCommand, hc]

theorem step_executing {s : State} {job : Job} {work : Gen} (hp : s.phase = .executing job work) :
    step s = .next (finishJob job work s) := by
  simp only [step, stepUnit, hp]

theorem step_powerUp {s : State} (hp : s.phase = .powerUp) : step s = .fault .notReset := by
  simp only [step, stepUnit, hp]

theorem step_command {s : State} {w : CmdWord} {rest : List CmdWord} {i : Instr} (hp : s.phase = .idle)
    (hc : s.commands = w :: rest) (hd : decode s.histEn w = .command i) :
    step s = exec i { s with commands := rest } := by
  rw [step_accept hp hc]
  exact runWord_command (s := { s with commands := rest }) hd

/-- Settles O40: an idle unit accepts the head of the list, and the decoder gives that command. -/
theorem stepRunsTheDecodedCommand : Obligations.StepRunsTheDecodedCommand := by
  unfold Obligations.StepRunsTheDecodedCommand
  exact fun _ _ _ _ => step_command

/-- A command word is below 2^20, so the 24 bits of the table hold it (R35). -/
theorem withFetchWord_eq_presentWord {w : Nat} (hw : w < 2 ^ 20) (s : State) :
    s.withFetchWord 24 w = presentWord (BitVec.ofNat 20 w) s := by
  rw [State.withFetchWord, Nat.mod_eq_of_lt (by omega)]

/-- Settles O41: the placed word is the head of the list of an idle unit. -/
theorem placedWordRunsNext : Obligations.PlacedWordRunsNext := by
  unfold Obligations.PlacedWordRunsNext
  intro s w i hw hd
  rw [withFetchWord_eq_presentWord hw]
  exact step_command (presentWord_phase _ s) (presentWord_commands _ s) hd

theorem runWord_keeps_commands_phase {w : CmdWord} {s t : State} (h : runWord w s = .next t) :
    t.commands = s.commands ∧ t.phase = s.phase := by
  cases hd : decode s.histEn w with
  | command i =>
    have hexec := (runWord_command hd).symm.trans h
    exact ⟨commands_exec hexec, phase_exec hexec⟩
  | illegal c =>
    cases (runWord_illegal hd).symm.trans h
    exact ⟨raiseIllegal_commands c w s, raiseIllegal_phase c w s⟩

/-- Settles O42: accepting takes one word off the list, and running it touches neither the list nor the sequencer. -/
theorem eachCommandIsAcceptedOnce : Obligations.EachCommandIsAcceptedOnce := by
  unfold Obligations.EachCommandIsAcceptedOnce
  intro s t w rest hp hc h
  have hrun := (step_accept hp hc).symm.trans h
  obtain ⟨hcommands, hphase⟩ := runWord_keeps_commands_phase hrun
  exact ⟨hcommands, hphase.trans hp, hrun⟩

/-- Settles O43: each clause is one branch of the step or of the edge. -/
theorem idleUnitHoldsAndUnresetUnitStops : Obligations.IdleUnitHoldsAndUnresetUnitStops := by
  unfold Obligations.IdleUnitHoldsAndUnresetUnitStops
  exact ⟨fun _ => step_wait, fun _ _ hp hr hv => clockEdge_wait hr hv hp, fun _ => step_powerUp,
    fun _ => step_powerUp rfl⟩

/-! ### The reset state (95_test_vectors.md §7) -/

/-- Settles O48: the reset state is a literal of each HIST_EN, read off register by register. -/
theorem observationOfTheResetState : Obligations.ObservationOfTheResetState := by
  unfold Obligations.ObservationOfTheResetState
  exact ⟨by decide, by decide, rfl⟩

end Sys2Proof.Machine
end

section
/-! PROOFS. The obligations on the invariants settled here: HISTEN is hardwired (R27), the host's list is no edge's
(log entries 2 and 9), and the invariant of the unit (R34, R202) holds at reset and is kept by every step and every
rising edge. Before them, what the command in flight and the acceptance edge of a word leave. -/

namespace Sys2Proof.Machine

/-! ### The command in flight -/

theorem phase_finishJob (job : Job) (work : Gen) (s : State) : (finishJob job work s).phase = .idle := by
  cases job with
  | advn left => simp [finishJob]
  | drop => simp [finishJob]
  | outcome a step dv => cases hs : s.hist <;> simp [finishJob, hs]

theorem commands_finishJob (job : Job) (work : Gen) (s : State) : (finishJob job work s).commands = s.commands := by
  cases job with
  | advn left => simp [finishJob]
  | drop => simp [finishJob]
  | outcome a step dv => cases hs : s.hist <;> simp [finishJob, hs]

theorem histEn_finishJob (job : Job) (work : Gen) (s : State) : (finishJob job work s).histEn = s.histEn := by
  cases job with
  | advn left => rw [finishJob, histEn_retireAdvance]; rfl
  | drop => rw [finishJob, histEn_retireDrop]; rfl
  | outcome a step dv => cases hs : s.hist <;> simp [finishJob, hs, State.histEn]

theorem commands_tickJob (job : Job) (work : Gen) (s : State) : (tickJob job work s).commands = s.commands := by
  obtain ⟨-, hretire⟩ | ⟨job', work', -, hbusy⟩ := tickJob_cases job work s
  · rw [hretire, commands_finishJob]
  · rw [hbusy, keepBusy_commands]

theorem histEn_tickJob (job : Job) (work : Gen) (s : State) : (tickJob job work s).histEn = s.histEn := by
  obtain ⟨-, hretire⟩ | ⟨job', work', -, hbusy⟩ := tickJob_cases job work s
  · rw [hretire, histEn_finishJob]
  · rw [hbusy, histEn_keepBusy]

/-- The job is that of a command of option HIST (R73). -/
def Job.needsHist : Job → Bool
  | .advn _ => false
  | .drop => false
  | .outcome _ _ _ => true

theorem sequencerOk_of_idle {s : State} (hp : s.phase = .idle) : s.sequencerOk := by
  simp only [State.sequencerOk, hp]

theorem sequencerOk_tickProtocol (a : Bool) (step : ProtocolStep) (dv : DropVec) (w : Gen) {s : State}
    (hen : s.histEn = true) : (tickProtocol a step dv w s).sequencerOk := by
  have hbusy (step' : ProtocolStep) (dv' : DropVec) : (keepBusy (.outcome a step' dv') w s).sequencerOk := hen
  cases step with
  | pairAdvance i => exact hbusy _ _
  | pairDrop i => rw [tickProtocol]; split <;> exact hbusy _ _
  | burn done => exact hbusy _ _
  | lastDrop =>
    obtain ⟨h, hs⟩ := histEn_eq_true.mp hen
    rw [tickProtocol, hs]
    split
    · exact hbusy _ _
    · exact sequencerOk_of_idle (toIdle_phase s)

/-- A cycle leaves the sequencer legal: it goes on with an ADVN only while an advance is left, and with a DROP only
after a zero low byte. -/
theorem sequencerOk_tickJob {job : Job} (work : Gen) {s : State} (hen : job.needsHist = true → s.histEn = true) :
    (tickJob job work s).sequencerOk := by
  cases job with
  | advn left =>
    rw [tickJob]
    split
    · exact sequencerOk_of_idle (toIdle_phase s)
    · have hleft : left - 1 ≠ 0 := by bv_omega
      exact hleft
  | drop =>
    by_cases hz : lowByte (N work) = 0
    · rw [tickJob, if_pos hz]
      exact hz
    · rw [tickJob, if_neg hz]
      exact sequencerOk_of_idle (toIdle_phase s)
  | outcome a step dv => exact sequencerOk_tickProtocol a step dv _ (hen rfl)

/-- The sequencer of a legal unit has a job of option HIST in flight only with the option. -/
theorem histEn_of_sequencerOk {job : Job} {work : Gen} {s : State} (hp : s.phase = .executing job work)
    (hok : s.sequencerOk) (hn : job.needsHist = true) : s.histEn = true := by
  cases job with
  | advn _ | drop => cases hn
  | outcome a step dv => simpa only [State.sequencerOk, hp] using hok

/-! ### The acceptance edge (R53, R240) -/

/-- The acceptance edge of a word at which the word retires, with the whole effect of the transaction. -/
def RetiresAtAcceptance (w : CmdWord) (s : State) : Prop :=
  wordLatency s.histEn w s.gen = 1 ∧ runWord w s = .next (acceptWord w s)

/-- The acceptance edge of a word whose command is put in flight as `job`: it is the job's first cycle, and the job
comes to the effect of the transaction. -/
def StartsJob (w : CmdWord) (s : State) (job : Job) : Prop :=
  acceptWord w s = tickJob job s.gen s ∧ wordLatency s.histEn w s.gen = jobTicks job s.gen ∧
  runWord w s = .next (finishJob job s.gen s) ∧ (job.needsHist = true → s.histEn = true)

theorem wordLatency_command {histEn : Bool} {w : CmdWord} {i : Instr} (hd : decode histEn w = .command i) (g : Gen) :
    wordLatency histEn w g = instrLatency i g := by
  simp only [wordLatency, hd]

theorem wordLatency_illegal {histEn : Bool} {w : CmdWord} {c : IllegalCause} (hd : decode histEn w = .illegal c)
    (g : Gen) : wordLatency histEn w g = 1 := by
  simp only [wordLatency, hd]

theorem retiresAtAcceptance_of_command {w : CmdWord} {s : State} {i : Instr} (hd : decode s.histEn w = .command i)
    (hlatency : instrLatency i s.gen = 1) (hexec : exec i s = .next (beginInstr i s)) : RetiresAtAcceptance w s := by
  refine ⟨(wordLatency_command hd _).trans hlatency, ?_⟩
  rw [runWord_command hd, acceptWord_command hd, hexec]

theorem startsJob_of_command {w : CmdWord} {s : State} {i : Instr} {job : Job} (hd : decode s.histEn w = .command i)
    (hbegin : beginInstr i s = tickJob job s.gen s) (hlatency : instrLatency i s.gen = jobTicks job s.gen)
    (hexec : exec i s = .next (finishJob job s.gen s)) (hen : job.needsHist = true → s.histEn = true) :
    StartsJob w s job :=
  ⟨(acceptWord_command hd).trans hbegin, (wordLatency_command hd _).trans hlatency,
    (runWord_command hd).trans hexec, hen⟩

/-- Completing a job from an idle unit is the retirement alone: the sequencer is already where it returns to. -/
theorem finishJob_advn_of_idle {s : State} (hp : s.phase = .idle) {n : Imm} (hn : n ≠ 0) :
    finishJob (.advn n) s.gen s = retireAdvance (N^[n.toNat] s.gen) s := by
  have hpos : max 1 n.toNat = n.toNat := by bv_omega
  rw [finishJob, hpos, advances_eq_iterate]
  exact congrArg (retireAdvance _) (State.with_phase_self hp)

theorem finishJob_drop_of_idle {s : State} (hp : s.phase = .idle) :
    finishJob .drop s.gen s = retireDrop (drop s.gen).state (drop s.gen).bit s := by
  rw [finishJob]
  exact congrArg (retireDrop _ _) (State.with_phase_self hp)

theorem finishJob_outcome_of_idle {s : State} (hp : s.phase = .idle) {h : HistPart} (hs : s.hist = some h) (a : Bool) :
    finishJob (.outcome a (.pairAdvance 0) 0) s.gen s =
      retireOutcome a (outcome s.gen).state (outcome s.gen).dv h s := by
  simp only [finishJob, State.with_phase_self hp]
  rw [hs, outcome_eq_protocolFrom]

/-- The acceptance edge of a word to an idle unit: the word retires at it, or it is the first cycle of a job. -/
theorem acceptWord_cases (w : CmdWord) {s : State} (hp : s.phase = .idle) :
    RetiresAtAcceptance w s ∨ ∃ job, StartsJob w s job := by
  cases hd : decode s.histEn w with
  | illegal c =>
    refine .inl ⟨wordLatency_illegal hd _, ?_⟩
    rw [runWord_illegal hd, acceptWord_illegal hd]
  | command i =>
    obtain ⟨-, hav⟩ := wellFormed_available_of_decode hd
    cases i with
    | nop | seed _ | adv | hclr | hread _ => exact .inl (retiresAtAcceptance_of_command hd rfl rfl)
    | drop =>
      refine .inr ⟨.drop, startsJob_of_command hd rfl rfl ?_ (by simp [Job.needsHist])⟩
      rw [exec_drop, finishJob_drop_of_idle hp]
    | advn n =>
      by_cases hn : n = 0
      · subst hn
        exact .inl (retiresAtAcceptance_of_command hd rfl rfl)
      · refine .inr ⟨.advn n, startsJob_of_command hd (if_neg hn) rfl ?_ (by simp [Job.needsHist])⟩
        rw [exec_advn, finishJob_advn_of_idle hp hn]
    | sim =>
      obtain ⟨h, hs⟩ := exists_hist_of_available rfl hav
      refine .inr ⟨_, startsJob_of_command hd (withHist_some hs) ?_ ?_ fun _ => histEn_eq_true.mpr ⟨h, hs⟩⟩
      · rw [instrLatency, outcome_eq_protocolFrom, jobTicks]
      · rw [exec_sim hs, finishJob_outcome_of_idle hp hs]
    | simacc =>
      obtain ⟨h, hs⟩ := exists_hist_of_available rfl hav
      refine .inr ⟨_, startsJob_of_command hd (withHist_some hs) ?_ ?_ fun _ => histEn_eq_true.mpr ⟨h, hs⟩⟩
      · rw [instrLatency, outcome_eq_protocolFrom, jobTicks]
      · rw [exec_simacc hs, finishJob_outcome_of_idle hp hs]

/-- What a rising edge without reset does, by the phase of the unit: it waits, accepts a word, or is a cycle of the
command in flight. -/
theorem clockEdge_cases {p : Pins} (hr : p.rst = false) (s : State) :
    clockEdge p s = s ∨
    (s.phase = .idle ∧ clockEdge p s = acceptWord p.cmd s) ∨
    (∃ job work, s.phase = .executing job work ∧ clockEdge p s = tickJob job work s) := by
  cases hp : s.phase with
  | powerUp => exact .inl (clockEdge_powerUp hr hp)
  | executing job work => exact .inr (.inr ⟨job, work, rfl, clockEdge_executing hr hp⟩)
  | idle =>
    cases hv : p.cmdValid with
    | true => exact .inr (.inl ⟨rfl, clockEdge_accept hr hv hp⟩)
    | false => exact .inl (clockEdge_wait hr hv hp)

/-! ### HISTEN and the host's list -/

theorem histEn_runWord {w : CmdWord} {s t : State} (h : runWord w s = .next t) : t.histEn = s.histEn := by
  cases hd : decode s.histEn w with
  | command i => exact histEn_exec ((runWord_command hd).symm.trans h)
  | illegal c =>
    cases (runWord_illegal hd).symm.trans h
    exact histEn_raiseIllegal c w s

theorem histEn_acceptWord (w : CmdWord) {s : State} (hp : s.phase = .idle) :
    (acceptWord w s).histEn = s.histEn := by
  obtain ⟨-, hrun⟩ | ⟨job, htick, -, -, -⟩ := acceptWord_cases w hp
  · exact histEn_runWord hrun
  · rw [htick, histEn_tickJob]

theorem histEn_step {s t : State} (h : step s = .next t) : t.histEn = s.histEn := by
  obtain ⟨-, -, rfl⟩ | ⟨w, rest, -, -, hrun⟩ | ⟨job, work, -, rfl⟩ := step_cases h
  · rfl
  · exact histEn_runWord (s := { s with commands := rest }) hrun
  · exact histEn_finishJob job work s

theorem histEn_clockEdge (p : Pins) (s : State) : (clockEdge p s).histEn = s.histEn := by
  cases hr : p.rst with
  | true => rw [clockEdge_reset hr, histEn_resetUnit]
  | false =>
    obtain hwait | ⟨hp, haccept⟩ | ⟨job, work, -, htick⟩ := clockEdge_cases hr s
    · rw [hwait]
    · rw [haccept, histEn_acceptWord p.cmd hp]
    · rw [htick, histEn_tickJob]

/-- Settles O52: no operation a step or an edge is made of changes which unit it is. -/
theorem histenIsHardwired : Obligations.HistenIsHardwired := by
  unfold Obligations.HistenIsHardwired
  exact ⟨fun _ _ => histEn_step, fun s p => histEn_clockEdge p s⟩

/-- Settles O46: an edge takes its word from the port, and neither a command nor reset writes the list. -/
theorem clockEdgeLeavesTheHostsList : Obligations.ClockEdgeLeavesTheHostsList := by
  unfold Obligations.ClockEdgeLeavesTheHostsList
  intro s p
  cases hr : p.rst with
  | true => rw [clockEdge_reset hr, resetUnit_commands]
  | false =>
    obtain hwait | ⟨hp, haccept⟩ | ⟨job, work, -, htick⟩ := clockEdge_cases hr s
    · rw [hwait]
    · rw [haccept]
      obtain ⟨-, hrun⟩ | ⟨job, hstart, -, -, -⟩ := acceptWord_cases p.cmd hp
      · obtain ⟨hcommands, -⟩ := runWord_keeps_commands_phase hrun
        exact hcommands
      · rw [hstart, commands_tickJob]
    · rw [htick, commands_tickJob]

/-! ### The error record (R202) -/

theorem errorRecordOk_of_eq {s t : State} (hen : t.histEn = s.histEn) (hrecord : t.errorRecord = s.errorRecord)
    (hok : s.errorRecordOk) : t.errorRecordOk := by
  obtain ⟨hill, hcause, hillcmd⟩ := (errorRecord_eq_iff s t).mp hrecord
  unfold State.errorRecordOk at hok ⊢
  rwa [hen, hill, hcause, hillcmd]

/-- The first illegal word is recorded under its own cause, and a later one changes nothing. -/
theorem errorRecordOk_raiseIllegal {c : IllegalCause} {w : CmdWord} {s : State} (hok : s.errorRecordOk)
    (hd : decode s.histEn w = .illegal c) : (raiseIllegal c w s).errorRecordOk := by
  cases hill : s.ill with
  | true => rwa [raiseIllegal_of_ill hill]
  | false =>
    rw [State.errorRecordOk, raiseIllegal_ill, if_pos rfl, raiseIllegal_illcmd, raiseIllegal_cause, hill]
    exact ⟨c, hd, rfl⟩

theorem errorRecordOk_runWord {w : CmdWord} {s t : State} (hok : s.errorRecordOk) (h : runWord w s = .next t) :
    t.errorRecordOk := by
  cases hd : decode s.histEn w with
  | command i =>
    obtain ⟨hwf, hav⟩ := wellFormed_available_of_decode hd
    have hexec := (runWord_command hd).symm.trans h
    exact errorRecordOk_of_eq (histEn_exec hexec) (errorRecord_exec_of_available hexec hwf hav) hok
  | illegal c =>
    cases (runWord_illegal hd).symm.trans h
    exact errorRecordOk_raiseIllegal hok hd

theorem errorRecordOk_finishJob {job : Job} {work : Gen} {s : State} (hok : s.errorRecordOk) :
    (finishJob job work s).errorRecordOk :=
  errorRecordOk_of_eq (histEn_finishJob job work s) (errorRecord_finishJob job work s) hok

theorem errorRecordOk_tickJob {job : Job} {work : Gen} {s : State} (hok : s.errorRecordOk) :
    (tickJob job work s).errorRecordOk :=
  errorRecordOk_of_eq (histEn_tickJob job work s) (errorRecord_tickJob job work s) hok

/-! ### The invariant -/

theorem inv_resetOf (histEn : Bool) : (State.resetOf histEn).Inv := ⟨⟨rfl, rfl⟩, trivial⟩

theorem inv_resetUnit (s : State) : (resetUnit s).Inv := ⟨⟨rfl, rfl⟩, trivial⟩

/-- Settles O49: reset empties the error record and makes the sequencer idle. -/
theorem invariantHoldsAtReset : Obligations.InvariantHoldsAtReset := by
  unfold Obligations.InvariantHoldsAtReset
  refine ⟨inv_resetOf Config.histEn, inv_resetOf, fun s p hr => ?_⟩
  rw [clockEdge_reset hr]
  exact inv_resetUnit s

/-- Settles O50: a step leaves the unit idle, and what it runs keeps the error record or records the accepted word under
its own cause. -/
theorem stepKeepsTheInvariant : Obligations.StepKeepsTheInvariant := by
  unfold Obligations.StepKeepsTheInvariant
  rintro s t ⟨herror, hsequencer⟩ h
  obtain ⟨-, -, rfl⟩ | ⟨w, rest, hp, -, hrun⟩ | ⟨job, work, -, rfl⟩ := step_cases h
  · exact ⟨herror, hsequencer⟩
  · obtain ⟨-, hphase⟩ := runWord_keeps_commands_phase hrun
    exact ⟨errorRecordOk_runWord (s := { s with commands := rest }) herror hrun,
      sequencerOk_of_idle (hphase.trans hp)⟩
  · exact ⟨errorRecordOk_finishJob herror, sequencerOk_of_idle (phase_finishJob job work s)⟩

/-- The acceptance edge keeps the invariant: a word that retires at it is a step's, and one put in flight is in its
first cycle. -/
theorem inv_acceptWord (w : CmdWord) {s : State} (hp : s.phase = .idle) (herror : s.errorRecordOk) :
    (acceptWord w s).Inv := by
  obtain ⟨-, hrun⟩ | ⟨job, hstart, -, -, hen⟩ := acceptWord_cases w hp
  · obtain ⟨-, hphase⟩ := runWord_keeps_commands_phase hrun
    exact ⟨errorRecordOk_runWord herror hrun, sequencerOk_of_idle (hphase.trans hp)⟩
  · rw [hstart]
    exact ⟨errorRecordOk_tickJob herror, sequencerOk_tickJob s.gen hen⟩

/-- Settles O51: reset gives the invariant, and otherwise the edge waits, accepts a word or is a cycle of a job that the
sequencer may have in flight. -/
theorem clockEdgeKeepsTheInvariant : Obligations.ClockEdgeKeepsTheInvariant := by
  unfold Obligations.ClockEdgeKeepsTheInvariant
  rintro s p ⟨herror, hsequencer⟩
  cases hr : p.rst with
  | true =>
    rw [clockEdge_reset hr]
    exact inv_resetUnit s
  | false =>
    obtain hwait | ⟨hp, haccept⟩ | ⟨job, work, hp, htick⟩ := clockEdge_cases hr s
    · rw [hwait]
      exact ⟨herror, hsequencer⟩
    · rw [haccept]
      exact inv_acceptWord p.cmd hp herror
    · rw [htick]
      exact ⟨errorRecordOk_tickJob herror, sequencerOk_tickJob work (histEn_of_sequencerOk hp hsequencer)⟩

end Sys2Proof.Machine
end

section
/-! PROOFS. The obligations on STATUS and the output ports settled here: the fields of STATUS (R27), and what the ports
show while the unit is idle, busy or not reset (R36, R233). -/

namespace Sys2Proof.Machine

/-! ### The fields of STATUS (R27) -/

theorem getLsbD_statusWord_busy (h : Bool) (dv : DropVec) (c : BitVec 2) (ill d b : Bool) :
    (statusWord h dv c ill d b).getLsbD 0 = b := statusWord_busy h dv c ill d b

theorem getLsbD_statusWord_dbit (h : Bool) (dv : DropVec) (c : BitVec 2) (ill d b : Bool) :
    (statusWord h dv c ill d b).getLsbD 1 = d := statusWord_dbit h dv c ill d b

theorem getLsbD_statusWord_ill (h : Bool) (dv : DropVec) (c : BitVec 2) (ill d b : Bool) :
    (statusWord h dv c ill d b).getLsbD 2 = ill := statusWord_ill h dv c ill d b

theorem getLsbD_statusWord_histen (h : Bool) (dv : DropVec) (c : BitVec 2) (ill d b : Bool) :
    (statusWord h dv c ill d b).getLsbD 10 = h := statusWord_histen h dv c ill d b

/-- The bits of a field of a word. -/
theorem getLsbD_of_extractLsb'_eq {x : ResultWord} {start len : Nat} {field : BitVec len}
    (h : x.extractLsb' start len = field) {i : Nat} (hle : start ≤ i) (hlt : i < start + len) :
    x.getLsbD i = field.getLsbD (i - start) := by
  rw [← h, BitVec.getLsbD_extractLsb', decide_eq_true (by omega), Bool.true_and, Nat.add_sub_cancel' hle]

theorem dvec_of_histEn_false {s : State} (hen : s.histEn = false) : s.dvec = 0 := by
  simp only [State.dvec, histEn_eq_false.mp hen]

/-- Settles O53: STATUS is a status word of the registers, and its fields are where `statusWord` puts them. -/
theorem statusFieldsInTheirPlaces : Obligations.StatusFieldsInTheirPlaces := by
  unfold Obligations.StatusFieldsInTheirPlaces
  intro s
  simp only [State.status, getLsbD_statusWord_busy, getLsbD_statusWord_dbit, getLsbD_statusWord_ill,
    getLsbD_statusWord_histen, statusWord_cause, statusWord_dvec, statusWord_reserved, true_and]
  exact dvec_of_histEn_false

/-! ### The output ports (R36, R233) -/

theorem cmdReady_of_busy {s : State} (hb : s.busy = true) (rst : Bool) : cmdReady rst s = false := by
  rw [cmdReady, hb]; rfl

theorem outputs_idle {s : State} (hp : s.phase = .idle) (rst : Bool) (draw : Ports) :
    outputs rst draw s =
      { cmdReady := !rst, stateO := s.gen, resultO := s.result, statusO := s.status, illcmdO := s.illcmd } := by
  simp only [outputs, hp, cmdReady, busy_of_idle hp, Bool.not_false, Bool.true_and]

theorem outputs_busy {s : State} (hb : s.busy = true) (rst : Bool) (draw : Ports) :
    outputs rst draw s = { draw with cmdReady := false, statusO := drawnStatus true draw.statusO s } := by
  obtain ⟨job, work, hp⟩ := busy_iff_executing.mp hb
  rw [outputs_executing hp, cmdReady_of_busy hb]

/-- DVEC shows 0 in every phase of a unit without option HIST (log entry 6). -/
theorem outputs_dvec_of_histEn_false {s : State} (hen : s.histEn = false) (rst : Bool) (draw : Ports) :
    (outputs rst draw s).statusO.extractLsb' 5 5 = 0 := by
  cases hp : s.phase with
  | idle => rw [outputs_idle hp, State.status, statusWord_dvec, dvec_of_histEn_false hen]
  | executing job work => rw [outputs_executing hp, drawnStatus, statusWord_dvec, hen]; rfl
  | powerUp => rw [outputs_powerUp hp, drawnStatus, statusWord_dvec, hen]; rfl

/-- DBIT, ILL and CAUSE show as drawn. -/
theorem getLsbD_drawnStatus (busy : Bool) (draw : ResultWord) (s : State) {i : Nat} (h1 : 1 ≤ i) (h4 : i ≤ 4) :
    (drawnStatus busy draw s).getLsbD i = draw.getLsbD i := by
  have hcause : (drawnStatus busy draw s).extractLsb' 3 2 = draw.extractLsb' 3 2 := statusWord_cause _ _ _ _ _ _
  obtain rfl | rfl | h3 : i = 1 ∨ i = 2 ∨ 3 ≤ i := by omega
  · rw [drawnStatus, getLsbD_statusWord_dbit]
  · rw [drawnStatus, getLsbD_statusWord_ill]
  · rw [getLsbD_of_extractLsb'_eq hcause h3 (by omega), ← getLsbD_of_extractLsb'_eq rfl h3 (by omega)]

/-- DVEC shows as drawn on a unit with option HIST. -/
theorem getLsbD_drawnStatus_dvec (busy : Bool) (draw : ResultWord) {s : State} (hen : s.histEn = true) {i : Nat}
    (h5 : 5 ≤ i) (h9 : i ≤ 9) : (drawnStatus busy draw s).getLsbD i = draw.getLsbD i := by
  have hdvec : (drawnStatus busy draw s).extractLsb' 5 5 = draw.extractLsb' 5 5 := by
    rw [drawnStatus, statusWord_dvec, hen, if_pos rfl]
  rw [getLsbD_of_extractLsb'_eq hdvec h5 (by omega), ← getLsbD_of_extractLsb'_eq rfl h5 (by omega)]

/-- Settles O54: the ports are followed phase by phase; to show given values while busy, draw those values. -/
theorem outputsShowRegistersWhenNotBusy : Obligations.OutputsShowRegistersWhenNotBusy := by
  unfold Obligations.OutputsShowRegistersWhenNotBusy
  refine ⟨fun rst draw s hp => outputs_idle hp rst draw, fun rst draw s hb => ?_, fun rst draw s => ⟨?_, ?_⟩,
    fun rst s v r st w hb => ?_⟩
  · rw [outputs_busy hb]
    exact ⟨rfl, getLsbD_statusWord_busy _ _ _ _ _ _, getLsbD_statusWord_histen _ _ _ _ _ _⟩
  · obtain ⟨dv, c, ill, d, b, hstatus⟩ := outputs_statusO rst draw s
    rw [hstatus, statusWord_reserved]
  · exact fun hen => outputs_dvec_of_histEn_false hen rst draw
  · refine ⟨{ cmdReady := false, stateO := v, resultO := r, statusO := st, illcmdO := w }, ?_⟩
    rw [outputs_busy hb]
    exact ⟨rfl, rfl, rfl, fun i h1 h4 => getLsbD_drawnStatus true st s h1 h4,
      fun hen i h5 h9 => getLsbD_drawnStatus_dvec true st hen h5 h9⟩

end Sys2Proof.Machine
end

section
/-! PROOFS. The obligations on the clock settled here: BUSY and the command port (R52, R53), the latencies of R241, and
the refinement of the transaction by the clock edges (R240, R245), from one lemma on the cycles of a command in flight.
The counts of edges are those of a unit with one advance a cycle (log entry 8). -/

namespace Sys2Proof.Machine

/-! ### A command in flight to its retirement (R240) -/

theorem busy_keepBusy (job : Job) (work : Gen) (s : State) : (keepBusy job work s).busy = true := rfl

/-- A cycle of a job does not look at the sequencer, but for the job itself. -/
theorem tickJob_keepBusy (job job' : Job) (work work' : Gen) (s : State) :
    tickJob job work (keepBusy job' work' s) = tickJob job work s := by
  cases job with
  | advn left | drop => rfl
  | outcome a step dv => cases step <;> rfl

/-- From one cycle of a job, the edges after it up to the job's last reach its whole effect, and before that only the
sequencer has moved. -/
theorem clockEdges_tickJob {job : Job} {work : Gen} (s : State) {later : List Pins}
    (hlen : later.length + 1 = jobTicks job work) (hr : ∀ p ∈ later, p.rst = false) :
    clockEdges later (tickJob job work s) = finishJob job work s ∧
    ∀ n < later.length, ∃ job' work', clockEdges (later.take n) (tickJob job work s) = keepBusy job' work' s := by
  induction later generalizing job work with
  | nil =>
    obtain ⟨-, hretire⟩ | ⟨job', work', ⟨hticks, -⟩, -⟩ := tickJob_cases job work s
    · exact ⟨hretire, by simp⟩
    · have hpos := jobTicks_pos job' work'
      rw [List.length_nil] at hlen
      omega
  | cons p later ih =>
    rw [List.length_cons] at hlen
    obtain ⟨hticks, -⟩ | ⟨job', work', ⟨hticks, hfinish⟩, hbusy⟩ := tickJob_cases job work s
    · omega
    · have hedge : clockEdge p (keepBusy job' work' s) = tickJob job' work' s := by
        rw [clockEdge_executing (hr p List.mem_cons_self) (keepBusy_phase job' work' s), tickJob_keepBusy]
      obtain ⟨hend, hbefore⟩ := ih (job := job') (work := work') (by omega) fun q hq => hr q (List.mem_cons_of_mem p hq)
      refine ⟨by rw [hbusy, clockEdges_cons, hedge, hend, hfinish], fun n hn => ?_⟩
      cases n with
      | zero => exact ⟨job', work', hbusy⟩
      | succ n =>
        rw [hbusy, List.take_succ_cons, clockEdges_cons, hedge]
        exact hbefore n (Nat.lt_of_succ_lt_succ hn)

/-- Settles O59: the first of the edges is a cycle of the job, and the others are the edges after it. -/
theorem stepOfABusyUnitIsItsEdges : Obligations.StepOfABusyUnitIsItsEdges := by
  unfold Obligations.StepOfABusyUnitIsItsEdges
  intro s job work ps hp hlen hr
  cases ps with
  | nil =>
    have hpos := jobTicks_pos job work
    rw [← hlen, List.length_nil] at hpos
    omega
  | cons p later =>
    have hedge : clockEdge p s = tickJob job work s := clockEdge_executing (hr p List.mem_cons_self) hp
    obtain ⟨hend, hbefore⟩ := clockEdges_tickJob s hlen fun q hq => hr q (List.mem_cons_of_mem p hq)
    rw [clockEdges_cons, hedge, hend]
    refine ⟨step_executing hp, phase_finishJob job work s, fun n hn => ?_⟩
    cases n with
    | zero => exact busy_iff_executing.mpr ⟨job, work, hp⟩
    | succ n =>
      obtain ⟨job', work', hbusy⟩ := hbefore n (Nat.lt_of_succ_lt_succ hn)
      rw [List.take_succ_cons, clockEdges_cons, hedge, hbusy, busy_keepBusy]

/-- Settles O58: a word that retires at its acceptance edge leaves no edge after it; one put in flight has had its first
cycle there, and the rest is the cycles of its job. -/
theorem clockedUnitRefinesTheTransaction : Obligations.ClockedUnitRefinesTheTransaction := by
  unfold Obligations.ClockedUnitRefinesTheTransaction
  intro s w later hp hlen hr edges
  have haccept (ps : List Pins) :
      clockEdges ({ rst := false, cmdValid := true, cmd := w } :: ps) s = clockEdges ps (acceptWord w s) := by
    rw [clockEdges_cons, clockEdge_accept rfl rfl hp]
  have hedges (n : Nat) : clockEdges (edges.take (n + 1)) s = clockEdges (later.take n) (acceptWord w s) :=
    haccept (later.take n)
  rw [haccept later]
  obtain ⟨hlatency, hrun⟩ | ⟨job, hstart, hlatency, hrun, -⟩ := acceptWord_cases w hp
  · obtain rfl : later = [] := List.eq_nil_of_length_eq_zero (by omega)
    obtain ⟨-, hphase⟩ := runWord_keeps_commands_phase hrun
    exact ⟨hrun, hphase.trans hp, fun n h1 hn => absurd h1 (Nat.not_le_of_lt hn)⟩
  · obtain ⟨hend, hbefore⟩ := clockEdges_tickJob s (hlen.trans hlatency) hr
    rw [hstart, hend]
    refine ⟨hrun, phase_finishJob job s.gen s, fun n h1 hn => ?_⟩
    obtain ⟨m, rfl⟩ := Nat.exists_eq_add_of_le' h1
    obtain ⟨job', work', hbusy⟩ := hbefore m (Nat.lt_of_succ_lt_succ hn)
    rw [hedges, hstart, hbusy]
    exact ⟨busy_keepBusy job' work' s, State.with_phase_self hp⟩

/-! ### BUSY and the command port (R52, R53) -/

/-- Settles O56: the edge is a cycle of the job whatever the port, and one that does not retire it only moves the
sequencer. -/
theorem busyUnitChangesNothingBeforeRetirement : Obligations.BusyUnitChangesNothingBeforeRetirement := by
  unfold Obligations.BusyUnitChangesNothingBeforeRetirement
  intro s p q hb hp hq
  obtain ⟨job, work, hphase⟩ := busy_iff_executing.mp hb
  rw [clockEdge_executing hp hphase, clockEdge_executing hq hphase]
  refine ⟨rfl, fun hstill => ?_⟩
  obtain ⟨-, hretire⟩ | ⟨job', work', -, hbusy⟩ := tickJob_cases job work s
  · rw [hretire, busy_of_idle (phase_finishJob job work s)] at hstill
    cases hstill
  · rw [hbusy]
    rfl

/-- A cycle of a job leaves the unit busy exactly when the job needs another. -/
theorem busy_tickJob_iff (job : Job) (work : Gen) (s : State) :
    (tickJob job work s).busy = true ↔ 1 < jobTicks job work := by
  obtain ⟨hticks, hretire⟩ | ⟨job', work', ⟨hticks, -⟩, hbusy⟩ := tickJob_cases job work s
  · rw [hretire, busy_of_idle (phase_finishJob job work s), hticks]
    decide
  · have hpos := jobTicks_pos job' work'
    rw [hbusy, busy_keepBusy, hticks]
    exact iff_of_true rfl (Nat.succ_lt_succ hpos)

theorem busy_acceptWord_iff (w : CmdWord) {s : State} (hp : s.phase = .idle) :
    (acceptWord w s).busy = true ↔ 1 < wordLatency s.histEn w s.gen := by
  obtain ⟨hlatency, hrun⟩ | ⟨job, hstart, hlatency, -, -⟩ := acceptWord_cases w hp
  · obtain ⟨-, hphase⟩ := runWord_keeps_commands_phase hrun
    rw [busy_of_idle (hphase.trans hp), hlatency]
    decide
  · rw [hstart, hlatency, busy_tickJob_iff]

/-- Settles O55: a word that retires at its acceptance edge leaves the unit idle, and a job's first cycle leaves it busy
exactly when the job needs another. -/
theorem busyAfterAcceptanceOfLongCommands : Obligations.BusyAfterAcceptanceOfLongCommands := by
  unfold Obligations.BusyAfterAcceptanceOfLongCommands
  refine ⟨fun s p hp hr hv => ?_, fun s rst => ?_, fun rst draw s hp => ?_⟩
  · rw [clockEdge_accept hr hv hp, busy_acceptWord_iff p.cmd hp]
  · cases hb : s.busy <;> cases rst <;> simp [cmdReady, hb]
  · rw [outputs_powerUp hp]
    exact ⟨rfl, getLsbD_statusWord_busy _ _ _ _ _ _⟩

/-! ### The latencies (R241) -/

/-- Settles O57: the table is `instrLatency`, and its bounds are those of the drop and of the protocol. -/
theorem latencyTable : Obligations.LatencyTable := by
  unfold Obligations.LatencyTable
  refine ⟨fun _ g _ _ hd => wordLatency_illegal hd g, fun _ g _ _ hd => wordLatency_command hd g,
    fun g v k i hi => ?_, fun g n => rfl, fun g => ⟨rfl, drop_advances_eq_one_or_two g⟩, fun g i hi => ?_⟩
  · simp only [List.mem_cons, List.not_mem_nil, or_false] at hi
    rcases hi with rfl | rfl | rfl | rfl | rfl <;> rfl
  · simp only [List.mem_cons, List.not_mem_nil, or_false] at hi
    rcases hi with rfl | rfl <;> exact outcome_advances_bounds g

end Sys2Proof.Machine
end
